-- ==== Sys2Proof/Word.lean ====
section
/-! DEFINITION. The value types of MH128E (spec/00_scope.md R5, R6): the byte, the 64-bit word of every datapath
operation, the 72-bit command word. Every value is unsigned and bit 0 is the least significant bit. `+`, `-` and `*` of
`BitVec 64` are the operators of R7 (reduced modulo 2^64), `^^^` is exclusive or, `>>>` and `<<<` fill with zeros. -/

namespace Sys2Proof

/-- A byte: 8 bits (R6). -/
abbrev Byte := BitVec 8

/-- A word: `XLEN = 64` bits, the width of A, B, C, D, of the seed and of BYTES (R5, R6). -/
abbrev Word := BitVec 64

/-- A command word: `CMD_W = 72` bits (R5, R70). -/
abbrev CmdWord := BitVec 72

end Sys2Proof
end

