-- ==== Sys2Proof/Syntax.lean ====
section
/-! DEFINITION. The command set of MH128E (spec/30_encoding.md R71): one constructor per row of spec/opcode_table.json,
with the operands each command reads. Primitives are not commands (R109); the pseudo-instructions UPDATE and HASH are
expansions (R80) and stand in Machine/Pseudo.lean. -/

namespace Sys2Proof

/-- A command (R71). -/
inductive Instr where
  /-- NOP: no operand (R72). -/
  | nop
  /-- INIT: the 64-bit seed, used as it stands (R73). -/
  | init (seed : Word)
  /-- PUSH: the data bytes in message order, as many as the `n` field says (R74). The ignored payload lanes are no part
  of the command: two words that differ only there are the same command (R78, notes/assumptions/8.md). -/
  | push (data : List Byte)
  /-- FINAL: no operand (R75). -/
  | final
deriving DecidableEq, Repr

end Sys2Proof
end

