-- ==== Sys2Proof/WellFormed.lean ====
section
/-! DEFINITION. Which commands have an encoding: NOP, FINAL, INIT with every seed (R73: every 64-bit value is legal),
and PUSH of at most `BEAT = 8` bytes (R5, R74). -/

namespace Sys2Proof

/-- The largest number of data bytes in one PUSH, `BEAT` (R5). -/
abbrev maxBeat : Nat := 8

/-- A command that some legal word encodes (R72 to R75). -/
def WellFormed : Instr → Bool
  | .nop => true
  | .init _ => true
  | .push data => data.length ≤ maxBeat
  | .final => true

end Sys2Proof
end

