-- ==== Sys2Proof/Decode.lean ====
section
/-! DEFINITION. Decoding and encoding of the 72-bit command word (spec/30_encoding.md), with the byte order they and
every memory read use (R9, R56). Decoding is total on all 2^72 words and uses no state (R76); an illegal word is refused
by the name of its cause. There is no instruction memory: a command word is taken whole from the command port (R60). -/

namespace Sys2Proof

/-! ### Byte order -/

/-- The unsigned number a list of bytes stands for, first byte least significant: the assembly that `MemRead` and
`LE64` share (R9). -/
def leNat : List Byte → Nat
  | [] => 0
  | b :: bs => b.toNat + 256 * leNat bs

/-- The same number zero-extended to a word (R9, R52). -/
def leWord (bs : List Byte) : Word := BitVec.ofNat 64 (leNat bs)

/-- Lane `i` of a 64-bit value: `v[8i+7:8i]` (R74, R106). -/
def lane (v : Word) (i : Nat) : Byte := v.extractLsb' (8 * i) 8

/-! ### Fields of a command word (R70) -/

/-- `op = cmd[71:68]` (R70). -/
def opField (w : CmdWord) : BitVec 4 := w.extractLsb' 68 4

/-- `n = cmd[67:64]` (R70). -/
def nField (w : CmdWord) : BitVec 4 := w.extractLsb' 64 4

/-- `payload = cmd[63:0]` (R70). -/
def payloadField (w : CmdWord) : Word := w.extractLsb' 0 64

/-! ### Decoding (R76) -/

/-- Why a word is no command (R76, R77). -/
inductive Illegal where
  /-- ILLOP: a reserved opcode, 4 to 15. -/
  | illop
  /-- ILLFMT: a nonzero must-be-zero field, or PUSH with `n` of 9 to 15. -/
  | illfmt
deriving DecidableEq, Repr

/-- The data bytes of a PUSH: byte `i` is lane `i`, for `i < n` (R74). -/
def pushData (n : Nat) (payload : Word) : List Byte := (List.range n).map (lane payload)

/-- The decoder, its checks in the order of R76. -/
def decode (w : CmdWord) : Except Illegal Instr :=
  let op := opField w
  let n := nField w
  let payload := payloadField w
  if 4 ≤ op.toNat then .error .illop
  else if op = 0 ∧ (n ≠ 0 ∨ payload ≠ 0) then .error .illfmt
  else if op = 1 ∧ n ≠ 0 then .error .illfmt
  else if op = 2 ∧ 9 ≤ n.toNat then .error .illfmt
  else if op = 3 ∧ (n ≠ 0 ∨ payload ≠ 0) then .error .illfmt
  else if op = 0 then .ok .nop
  else if op = 1 then .ok (.init payload)
  else if op = 2 then .ok (.push (pushData n.toNat payload))
  else .ok .final

/-- The decoder on a word numbered as spec/opcode_table.json numbers it: the one 72-bit word of the command, bit 0 its
least significant bit; bits above `nbits` are zero. -/
def decodeTableWord (nbits w : Nat) : Option Instr :=
  (decode (BitVec.ofNat 72 (w % 2 ^ nbits))).toOption

/-! ### Encoding (R70, R72 to R75) -/

/-- A command word from its three fields (R70). -/
def mkWord (op n : BitVec 4) (payload : Word) : CmdWord := op ++ n ++ payload

/-- The word of a well-formed command; the ignored lanes of PUSH are written as zeros (R79). -/
def encode : Instr → CmdWord
  | .nop => mkWord 0 0 0
  | .init seed => mkWord 1 0 seed
  | .push data => mkWord 2 (BitVec.ofNat 4 data.length) (leWord data)
  | .final => mkWord 3 0 0

/-! ### The opcode table (R76, second reading) -/

/-- A row of the opcode table: the bits a word is compared on, and what they must be (R72 to R75). -/
structure OpcodeRow where
  mnemonic : String
  pattern : CmdWord
  mask : CmdWord
deriving DecidableEq, Repr

/-- The four rows (R72, R73, R74, R75; spec/opcode_table.json). -/
def opcodeRows : List OpcodeRow :=
  [⟨"NOP", 0x000000000000000000, 0xFFFFFFFFFFFFFFFFFF⟩,
   ⟨"INIT", 0x100000000000000000, 0xFF0000000000000000⟩,
   ⟨"PUSH", 0x200000000000000000, 0xF00000000000000000⟩,
   ⟨"FINAL", 0x300000000000000000, 0xFFFFFFFFFFFFFFFFFF⟩]

/-- A word selects a row: `w & mask = match`, for PUSH also `n <= 8` (R76). -/
def OpcodeRow.selects (r : OpcodeRow) (w : CmdWord) : Bool :=
  w &&& r.mask = r.pattern && (r.mnemonic != "PUSH" || (nField w).toNat ≤ 8)

/-- The row a command belongs to. -/
def rowName : Instr → String
  | .nop => "NOP"
  | .init _ => "INIT"
  | .push _ => "PUSH"
  | .final => "FINAL"

end Sys2Proof
end

