-- ==== Sys2Proof/Config.lean ====
section
/-! DEFINITION. What one implementation of MH128E fixes and the spec does not: the "Open parameters" of
spec/92_eei_decisions.md. The words that A, B, C and D hold after a reset are "any; never read" (R181, R182, D10): each
is a FREE VALUE, an opaque constant with no body, applied to the number of the reset (the values "may differ between
resets", R181). DESIGN CHOICE, notes/assumptions/1.md: unsafe only in that the k-th reset of every run of the model
draws the same words. The other open parameters, the latencies `LAT_*`, are read by no rule and have no counterpart
(R189, notes/assumptions/6.md). -/

namespace Sys2Proof

/-- What A holds after the reset numbered `k` (R181: unspecified). -/
opaque Config.resetA (k : Nat) : Word

/-- What B holds after the reset numbered `k` (R181: unspecified). -/
opaque Config.resetB (k : Nat) : Word

/-- What C holds after the reset numbered `k` (R181: unspecified). -/
opaque Config.resetC (k : Nat) : Word

/-- What D holds after the reset numbered `k` (R181: unspecified). -/
opaque Config.resetD (k : Nat) : Word

end Sys2Proof
end

