-- ==== Sys2Proof/Machine/State.lean ====
section
/-! DEFINITION. The state of MH128E (spec/10_state.md section 1: "all the state of MH128E is listed here"), the reasons a
step can stop, and the state after reset (R181). Beside the engine's own state stand three fields of the MODEL: the
host's drive of the input ports, the index of its next command (R27), and a count of resets that draws the free values
of Config (notes/assumptions/1.md, 4.md, 5.md). Everything is plain data. -/

namespace Sys2Proof.Machine

/-- HashState: "four 64-bit words (A, B, C, D)" (R20). -/
structure HashState where
  A : Word
  B : Word
  C : Word
  D : Word
deriving DecidableEq, Repr

/-- PHASE, the lifecycle register (R28). The value 3 is never entered, so the type lacks it (U11,
notes/assumptions/3.md). -/
inductive Phase where
  /-- 0: since reset, no INIT yet; A to D hold no value. -/
  | idle
  /-- 1: an INIT has been executed and no FINAL since. -/
  | active
  /-- 2: a FINAL has been executed and no INIT since; DIGEST is valid. -/
  | finalized
deriving DecidableEq, Repr

/-- The cause of a reject (R161). -/
inductive Cause where
  /-- `op` in 4 to 15 (R164). -/
  | illop
  /-- A must-be-zero field is nonzero, or PUSH `n` in 9 to 15 (R165). -/
  | illfmt
  /-- PUSH or FINAL while PHASE is not ACTIVE (R166). -/
  | seq
  /-- PUSH that would take BYTES to 2^64 or more (R167). -/
  | lenovf
deriving DecidableEq, Repr

/-- ERRCODE: NONE, or the cause of the first reject since reset (R31, R161). -/
inductive ErrCode where
  /-- 0: no reject since reset. -/
  | none
  /-- 1 to 4: the first cause. -/
  | first (c : Cause)
deriving DecidableEq, Repr

/-- What the host drives on the input ports at one sampling with the engine ready (R184, R186). -/
structure HostDrive where
  rst : Bool
  cmdValid : Bool
  cmd : CmdWord
deriving DecidableEq, Repr

/-- The state of the engine and of the host that drives it. -/
structure State where
  /-- A, B, C, D (R20). -/
  hash : HashState
  /-- CARRY (R24, R50): the bytes that hold a value, addresses strictly rising, all below 32; an unlisted address holds
  no value (R181, R182). -/
  carry : List Host.Cell
  /-- BYTES (R26). -/
  bytes : Word
  /-- PHASE (R28). -/
  phase : Phase
  /-- ERR (R30). -/
  err : Bool
  /-- ERRCODE (R31). -/
  errCode : ErrCode
  /-- The model's own: what the host drives at the coming samplings, next first (R27, R187). -/
  host : List HostDrive
  /-- The model's own: the index of the next command in the host's command list (R27). -/
  pc : Nat
  /-- The model's own: how many resets have been taken; it draws the words A to D hold after the next one. -/
  resets : Nat
deriving DecidableEq, Repr

/-- Why the model stops with a fault. The engine itself has no fault: its rejects are next states (R160, R162). -/
inductive Fault where
  /-- Raised by a byte read of CARRY at an address that nothing has written since reset: it holds no value (R181), and
  R182 has its read fault. SAFE: the model stops where hardware would go on with an unspecified byte; no state that
  meets `EngineInv` (Safety.lean) raises it. -/
  | carryNoValue (i : Nat)
  /-- Raised by a byte read or write of CARRY at an index outside 0 to 31, an address that does not exist (R50, R52,
  R53). SAFE: no command computes such an index. -/
  | carryIndex (i : Nat)
deriving DecidableEq, Repr

/-- Why the model gives no meaning. -/
inductive Refusal where
  /-- Raised by an arm of exec for a command that has no meaning yet. SAFE: the model stops. No arm raises it: every
  command of the table has its meaning. -/
  | notModelled (mnemonic : String)
deriving DecidableEq, Repr

/-- The words A to D hold after the reset numbered `k`: unspecified (R181), so free values (notes/assumptions/1.md). -/
def hashAfterReset (k : Nat) : HashState :=
  { A := Config.resetA k, B := Config.resetB k, C := Config.resetC k, D := Config.resetD k }

/-- The state right after reset (R181): IDLE, no error, BYTES 0, no byte of CARRY with a value. No command is waiting:
the host's command list is given from outside (R27, notes/assumptions/4.md). -/
def State.reset : State :=
  { hash := hashAfterReset 0
    carry := []
    bytes := 0
    phase := .idle
    err := false
    errCode := .none
    host := []
    pc := 0
    resets := 0 }

end Sys2Proof.Machine
end

