-- ==== Sys2Proof/Machine/Ops.lean ====
section
/-! DEFINITION. The named operations over the carry buffer, the derived quantities of BYTES, the reject (the engine's one
exceptional event, written once), the reset transition, and the sampling of the input ports. There is no return from a
reject: control goes nowhere (R170). -/

namespace Sys2Proof.Machine

/-! ### The carry buffer as data -/

/-- `CARRY_SIZE`: the number of addresses (R5, R50). -/
abbrev carrySize : Nat := 32

/-- The byte at an address, or nothing where the address holds no value: THE ONE definition of what an unlisted address
reads as (R181, R182, notes/assumptions/2.md). -/
def Memory.get? : List Host.Cell → Nat → Option Byte
  | [], _ => none
  | (a, b) :: m, i => if a = i then some b else Memory.get? m i

/-- The carry buffer after a byte is stored, in the canonical form. -/
def Memory.set : List Host.Cell → Nat → Byte → List Host.Cell
  | [], i, b => [(i, b)]
  | (a, c) :: m, i, b =>
    if i < a then (i, b) :: (a, c) :: m
    else if i = a then (i, b) :: m
    else (a, c) :: Memory.set m i b

/-- Addresses strictly rising from `lo` on, all below 32. -/
def Memory.risingFrom : Nat → List Host.Cell → Bool
  | _, [] => true
  | lo, (a, _) :: m => decide (lo ≤ a ∧ a < carrySize) && Memory.risingFrom (a + 1) m

/-- The canonical form: addresses strictly rising, all of them addresses of CARRY. An unlisted address holds no value,
which no listed byte equals, so equal buffers are equal lists. -/
def Memory.wf (m : List Host.Cell) : Bool := Memory.risingFrom 0 m

/-! ### Reads and writes (R52, R53) -/

/-- One byte of CARRY. A byte that nothing has written holds no value: the read faults (R182). -/
def readByte (m : List Host.Cell) (i : Nat) : Except Fault Byte :=
  if i < carrySize then
    match Memory.get? m i with
    | some b => .ok b
    | none => .error (.carryNoValue i)
  else .error (.carryIndex i)

/-- `CARRY[i] ... CARRY[i+n-1]`, in address order. -/
def readBytes (m : List Host.Cell) (i : Nat) : Nat → Except Fault (List Byte)
  | 0 => .ok []
  | n + 1 =>
    match readByte m i with
    | .error f => .error f
    | .ok b =>
      match readBytes m (i + 1) n with
      | .error f => .error f
      | .ok bs => .ok (b :: bs)

/-- `MemWrite(i, 1, v)`: one byte wide, there is no wider write (R53). -/
def memWrite (m : List Host.Cell) (i : Nat) (v : Byte) : Except Fault (List Host.Cell) :=
  if i < carrySize then .ok (Memory.set m i v) else .error (.carryIndex i)

/-- Byte writes at rising addresses, in order (R53, R58). -/
def writeBytes (m : List Host.Cell) (i : Nat) : List Byte → Except Fault (List Host.Cell)
  | [] => .ok m
  | b :: bs =>
    match memWrite m i b with
    | .error f => .error f
    | .ok m' => writeBytes m' (i + 1) bs

/-! ### Derived quantities of BYTES (R26) -/

/-- `FILL = BYTES mod 32`: how many bytes at the front of CARRY are valid. -/
def State.fill (s : State) : Nat := s.bytes.toNat % 32

/-- `BULK = (BYTES >= 32)`: at least one whole block has been mixed. -/
def State.bulk (s : State) : Bool := decide (32 ≤ s.bytes.toNat)

/-! ### The reject (R160 to R163) -/

/-- A command is rejected with a cause: `if ERR = 0: ERRCODE <- c`, then `ERR <- 1`, and nothing else (R162, R163). The
engine goes on with the next command (R170). -/
def reject (c : Cause) (s : State) : State :=
  { s with errCode := if s.err then s.errCode else .first c, err := true }

/-- The cause an illegal word is rejected with (R76). -/
def illegalCause : Illegal → Cause
  | .illop => .illop
  | .illfmt => .illfmt

/-- What an illegal word does: it is not executed, it is rejected (R76, R164, R165). -/
def rejectIllegal (e : Illegal) (s : State) : State := reject (illegalCause e) s

/-! ### Reset (R180, R181, R188) -/

/-- The reset transition: every piece of the engine's state as R181 says, whatever it was (R188); the host's list and the
index into it are not the engine's (R27). A reset during a command is this transition after it
(notes/assumptions/11.md). -/
def resetEngine (s : State) : State :=
  { hash := hashAfterReset (s.resets + 1)
    carry := []
    bytes := 0
    phase := .idle
    err := false
    errCode := .none
    host := s.host
    pc := s.pc
    resets := s.resets + 1 }

/-! ### Sampling the input ports (R180, R184, R186) -/

/-- `cmd_ready` at a sampling with no command in progress: the engine can accept unless `rst` is high (R180, R186). -/
def cmdReady (d : HostDrive) : Bool := !d.rst

/-- A command is accepted when `cmd_valid = 1` and `cmd_ready = 1` (R186). -/
def accepts (d : HostDrive) : Bool := d.cmdValid && cmdReady d

/-- The state with the next drive of the ports taken off the host's list. -/
def dropDrive (s : State) : State := { s with host := s.host.tail }

/-- The state with an accepted command taken: the host's list moved on and the index advanced by exactly 1, whatever the
command will do (R27, R139). -/
def takeCommand (s : State) : State := { s with host := s.host.tail, pc := s.pc + 1 }

end Sys2Proof.Machine
end

