-- ==== Sys2Proof/Machine/Operands.lean ====
section
/-! DEFINITION. The operand forms: the read widths of `MemRead` (R52, R55), the same reads of a byte list that is not in
CARRY (`LE64`, R9, R93), and a whole beat of PUSH. The one addressing mode is an absolute index computed by the sequencer
(R54). The operands of a command word (`seed`, the data bytes) are taken apart in Decode.lean. -/

namespace Sys2Proof.Machine

/-- The widths `MemRead` has: 1, 2, 4 or 8 bytes (R52). -/
inductive Width where
  | w1
  | w2
  | w4
  | w8
deriving DecidableEq, Repr

/-- The number of bytes of a width. -/
def Width.bytes : Width → Nat
  | .w1 => 1
  | .w2 => 2
  | .w4 => 4
  | .w8 => 8

/-- `MemRead(i, n)`: the little-endian value of `CARRY[i .. i+n-1]`, zero-extended to 64 bits (R9, R52). -/
def memRead (m : List Host.Cell) (i : Nat) (n : Width) : Except Fault Word :=
  match readBytes m i n.bytes with
  | .error f => .error f
  | .ok bs => .ok (leWord bs)

/-- The same read of a list of bytes: the little-endian value of `bs[i .. i+n-1]` (R9, R93, R107). -/
def leAt (bs : List Byte) (i : Nat) (n : Width) : Word := leWord ((bs.drop i).take n.bytes)

end Sys2Proof.Machine
end

