-- ==== Sys2Proof/Machine/Mixing.lean ====
section
/-! DEFINITION. The mixing primitives (spec/40_mixing_primitives.md), the micro-operations the commands are made of: each a
pure function of the state words and of the data words it names. None writes a flag and none can fail. The assignments of
a rule are sequential: a later line reads what an earlier one wrote (R8, R97).

The rules write a product as `x * K0` and a sum as `seed + K0`; here the constant stands first. Both operations commute
modulo 2^64 (R7, R92), and Lean's kernel, which unfolds them along the right operand, is not sent through the literal
(notes/assumptions/12.md). -/

namespace Sys2Proof.Machine

/-! ### Constants and the right rotate -/

/-- `K0` (R90). -/
def K0 : Word := 0x00000000C83A91E1
/-- `K1` (R90). -/
def K1 : Word := 0x000000008648DBDB
/-- `K2` (R90). -/
def K2 : Word := 0x000000007BDEC03B
/-- `K3` (R90). -/
def K3 : Word := 0x000000002F5870A5

/-- The right rotate, defined for `0 < r < 64` only: a use outside cannot be written (R91, U16,
notes/assumptions/13.md). -/
def rotr (x : Word) (r : Nat) (_h : 0 < r ∧ r < 64 := by decide) : Word :=
  (x >>> r) ||| (x <<< (64 - r))

/-! ### Seed initialisation and block mixing -/

/-- SEEDINIT (R95). -/
def seedInit (seed : Word) : HashState :=
  { A := K3 * (seed - K0)
    B := K2 * (K1 + seed)
    C := K2 * (K0 + seed)
    D := K3 * (seed - K1) }

/-- MIX32 (R96). The A and B lines read C and D from before the block, the C and D lines read the new A and B (R97). -/
def mix32 (w0 w1 w2 w3 : Word) (h : HashState) : HashState :=
  let a := rotr (h.A + K0 * w0) 29 + h.C
  let b := rotr (h.B + K1 * w1) 29 + h.D
  let c := rotr (h.C + K2 * w2) 29 + a
  let d := rotr (h.D + K3 * w3) 29 + b
  { A := a, B := b, C := c, D := d }

/-- MIX32 of the block at offset `o` of a byte list: four little-endian words (R93, R107). -/
def mixBlock (bs : List Byte) (o : Nat) (h : HashState) : HashState :=
  mix32 (leAt bs o .w8) (leAt bs (o + 8) .w8) (leAt bs (o + 16) .w8) (leAt bs (o + 24) .w8) h

/-- MIX32 of each of the first `k` blocks of a byte list, in order (R107, step 3). -/
def mixBlocks (bs : List Byte) : Nat → HashState → HashState
  | 0, h => h
  | k + 1, h => mixBlock bs (32 * k) (mixBlocks bs k h)

/-! ### Block finalization -/

/-- BFIN: C, then D with the new C, then A with both, then B (R98). -/
def bfin (h : HashState) : HashState :=
  let c := h.C ^^^ (K1 * rotr (K0 * (h.A + h.D) + h.B) 21)
  let d := h.D ^^^ (K0 * rotr (K1 * (h.B + c) + h.A) 21)
  let a := h.A ^^^ (K1 * rotr (K0 * (h.A + c) + d) 21)
  let b := h.B ^^^ (K0 * rotr (K1 * (h.B + d) + c) 21)
  { A := a, B := b, C := c, D := d }

/-! ### Tail finalization

A tail piece reads bytes `o, o+1, …` of the list `t`, which is `CARRY[0 .. r-1]` in the engine and the last `r` bytes of
the message in the pure function (R99, R107). The multipliers of the five pieces are the spec's own, supplied there from
general knowledge (R100 to R104, G1, notes/assumptions/10.md). -/

/-- T16 (R100): both rotate-multiplies, then the A fold with the new B, then the B fold with the folded A. -/
def t16 (t : List Byte) (o : Nat) (h : HashState) : HashState :=
  let a := K3 * rotr (h.A + K2 * leAt t o .w8) 33
  let b := K3 * rotr (h.B + K2 * leAt t (o + 8) .w8) 33
  let a' := a ^^^ (K1 * rotr (K2 * a + b) 45)
  let b' := b ^^^ (K0 * rotr (K3 * b + a') 45)
  { h with A := a', B := b' }

/-- T8 (R101): A only. -/
def t8 (t : List Byte) (o : Nat) (h : HashState) : HashState :=
  let a := K3 * rotr (h.A + K2 * leAt t o .w8) 33
  { h with A := a ^^^ (K1 * rotr (K2 * a + h.B) 27) }

/-- T4 (R102): B only. -/
def t4 (t : List Byte) (o : Nat) (h : HashState) : HashState :=
  let b := K3 * rotr (h.B + K2 * leAt t o .w4) 33
  { h with B := b ^^^ (K0 * rotr (K3 * b + h.A) 46) }

/-- T2 (R103): A only. -/
def t2 (t : List Byte) (o : Nat) (h : HashState) : HashState :=
  let a := K3 * rotr (h.A + K2 * leAt t o .w2) 33
  { h with A := a ^^^ (K1 * rotr (K2 * a + h.B) 22) }

/-- T1 (R104): B only. -/
def t1 (t : List Byte) (o : Nat) (h : HashState) : HashState :=
  let b := K3 * rotr (h.B + K2 * leAt t o .w1) 33
  { h with B := b ^^^ (K0 * rotr (K3 * b + h.A) 58) }

/-- One line of TAIL: `if r - o >= size : <piece>(o) ; o <- o + size`, on the offset and the state words (R99). -/
def tailLine (r size : Nat) (piece : Nat → HashState → HashState) (p : Nat × HashState) : Nat × HashState :=
  if size ≤ r - p.1 then (p.1 + size, piece p.1 p.2) else p

/-- TAIL: the pieces of 16, 8, 4, 2, 1 bytes, each present if that many bytes remain (R99). -/
def tail (t : List Byte) (h : HashState) : HashState :=
  let r := t.length
  let p16 := tailLine r 16 (t16 t) (0, h)
  let p8 := tailLine r 8 (t8 t) p16
  let p4 := tailLine r 4 (t4 t) p8
  let p2 := tailLine r 2 (t2 t) p4
  (tailLine r 1 (t1 t) p2).2

/-! ### Avalanche and output -/

/-- AVAL: four lines, each using the just-updated value of the other word (R105). -/
def aval (h : HashState) : HashState :=
  let a1 := h.A + rotr (K0 * h.A + h.B) 13
  let b1 := h.B + rotr (K1 * h.B + a1) 37
  let a2 := a1 + rotr (K2 * a1 + b1) 13
  let b2 := b1 + rotr (K3 * b1 + a2) 37
  { h with A := a2, B := b2 }

/-- OUTPUT: the little-endian bytes of A, then those of B (R106). -/
def output (h : HashState) : List Byte :=
  (List.range 8).map (lane h.A) ++ (List.range 8).map (lane h.B)

end Sys2Proof.Machine
end

