-- ==== Sys2Proof/Machine/Commands.lean ====
section
/-! DEFINITION. The meanings of the four engine commands (spec/41_engine_commands.md). Each is an indivisible step: its
state checks, then, only if none failed, its writes (R130). A rejected command is a next state in which only ERR and
ERRCODE may differ (R162, R163). -/

namespace Sys2Proof.Machine

/-- The outcome of a computation on the carry buffer: its next state, or the fault it stopped with. -/
def settle : Except Fault State → Host.Outcome State Fault Refusal
  | .ok s => .next s
  | .error f => .fault f

/-! ### NOP -/

/-- NOP: every field keeps its value, in every phase (R131). -/
def execNop (s : State) : Host.Outcome State Fault Refusal := .next s

/-! ### INIT -/

/-- INIT: SEEDINIT, BYTES 0, PHASE ACTIVE, from every phase; CARRY, ERR and ERRCODE are not written (R132). -/
def execInit (seed : Word) (s : State) : Host.Outcome State Fault Refusal :=
  .next { s with hash := seedInit seed, bytes := 0, phase := .active }

/-! ### PUSH -/

/-- MIX32 of the block held in CARRY: `MIX32(MemRead(0,8), MemRead(8,8), MemRead(16,8), MemRead(24,8))` (R93, R133). -/
def mixCarry (s : State) : Except Fault State :=
  match memRead s.carry 0 .w8, memRead s.carry 8 .w8, memRead s.carry 16 .w8, memRead s.carry 24 .w8 with
  | .ok w0, .ok w1, .ok w2, .ok w3 => .ok { s with hash := mix32 w0 w1 w2 w3 s.hash }
  | .error f, _, _, _ => .error f
  | .ok _, .error f, _, _ => .error f
  | .ok _, .ok _, .error f, _ => .error f
  | .ok _, .ok _, .ok _, .error f => .error f

/-- One turn of PUSH's loop: `MemWrite(BYTES mod 32, 1, b)`, `BYTES <- BYTES + 1`, and MIX32 when `BYTES mod 32 = 0`
(R133). -/
def pushByte (b : Byte) (s : State) : Except Fault State :=
  match memWrite s.carry s.fill b with
  | .error f => .error f
  | .ok m =>
    let s' := { s with carry := m, bytes := s.bytes + 1 }
    if s'.fill = 0 then mixCarry s' else .ok s'

/-- PUSH's loop over the data bytes, in message order (R133). -/
def pushBytes : List Byte → State → Except Fault State
  | [], s => .ok s
  | b :: bs, s =>
    match pushByte b s with
    | .error f => .error f
    | .ok s' => pushBytes bs s'

/-- LENOVF's condition: `BYTES + n`, computed without wrap, is 2^64 or more (R167). -/
def overflows (n : Nat) (s : State) : Bool := decide (2 ^ 64 ≤ s.bytes.toNat + n)

/-- PUSH: ILLFMT for more than 8 bytes, SEQ outside ACTIVE, LENOVF on overflow of BYTES, in that order; else the loop
(R133). No decoded word has more than 8 bytes (R76): the first check is the command's own all the same
(notes/assumptions/8.md). -/
def execPush (data : List Byte) (s : State) : Host.Outcome State Fault Refusal :=
  if maxBeat < data.length then .next (reject .illfmt s)
  else if s.phase ≠ .active then .next (reject .seq s)
  else if overflows data.length s then .next (reject .lenovf s)
  else settle (pushBytes data s)

/-! ### FINAL -/

/-- What FINAL leaves in the state words, given the tail `CARRY[0 .. FILL-1]`: BFIN if `BYTES >= 32`, TAIL, AVAL (R134). -/
def finalHash (bulk : Bool) (t : List Byte) (h : HashState) : HashState :=
  aval (tail t (if bulk then bfin h else h))

/-- FINAL: SEQ outside ACTIVE; else BFIN if `BYTES >= 32`, TAIL, AVAL, BYTES 0, PHASE FINALIZED; CARRY is not written
(R134). -/
def execFinal (s : State) : Host.Outcome State Fault Refusal :=
  if s.phase ≠ .active then .next (reject .seq s)
  else
    match readBytes s.carry 0 s.fill with
    | .error f => .fault f
    | .ok t => .next { s with hash := finalHash s.bulk t s.hash, bytes := 0, phase := .finalized }

end Sys2Proof.Machine
end

