-- ==== Sys2Proof/Machine/Sample.lean ====
section
/-! DEFINITION. What one sampling of the input ports with no command in progress does (R130, R180, R186). There is no program
counter and no fetch (R27): the command word is the one the host presents. -/

namespace Sys2Proof.Machine

/-- An accepted word: decoded, then executed, or rejected if it is illegal (R76, R130). -/
def runWord (w : CmdWord) (s : State) : Host.Outcome State Fault Refusal :=
  match decode w with
  | .ok i => exec i s
  | .error e => .next (rejectIllegal e s)

/-- One sampling. While `rst` is high no command is accepted and the engine takes the reset state (R180); an accepted command
runs as a whole (R130); a sampling with `cmd_valid = 0` does nothing (R186); with the host's list exhausted the state no
longer changes (R187). -/
def sample (s : State) : Host.Outcome State Fault Refusal :=
  match s.host with
  | [] => .next s
  | d :: _ =>
    if d.rst then .next (resetEngine (dropDrive s))
    else if accepts d then runWord d.cmd (takeCommand s)
    else .next (dropDrive s)

/-- The host presents a word at the next sampling, in the place of what it would have driven there. -/
def presentNext (s : State) (w : CmdWord) : State :=
  { s with host := { rst := false, cmdValid := true, cmd := w } :: s.host.tail }

end Sys2Proof.Machine
end

