-- ==== Sys2Proof/Machine/Step.lean ====
section
/-! DEFINITION. One step of MH128E, and the presentation of a command word as the next one to run. -/

namespace Sys2Proof.Machine

/-- One step: one sampling of the input ports, and the accepted command as a whole (R130). -/
def step (s : State) : Host.Outcome State Fault Refusal := sample s

/-- The state in which the next step runs the word `w`, its bits above `nbits` zero (notes/assumptions/4.md). -/
def State.withFetchWord (s : State) (nbits w : Nat) : State := presentNext s (BitVec.ofNat 72 (w % 2 ^ nbits))

end Sys2Proof.Machine
end

