-- ==== Sys2Proof/Machine/Flags.lean ====
section
/-! DEFINITION. There are no arithmetic flags (10_state.md section 5: no datapath operation has a side effect on a flag).
The two flags are of rejected commands, ERR and ERRCODE, and `reject` (Ops.lean) computes them. Here are the codes their
values and PHASE have on the status port (R28, R32, R161). -/

namespace Sys2Proof.Machine

/-- The 2-bit value of PHASE (R28). -/
def Phase.code : Phase → BitVec 2
  | .idle => 0
  | .active => 1
  | .finalized => 2

/-- The 3-bit value of ERRCODE (R161). -/
def ErrCode.code : ErrCode → BitVec 3
  | .none => 0
  | .first .illop => 1
  | .first .illfmt => 2
  | .first .seq => 3
  | .first .lenovf => 4

/-- The `status[7:0]` port: PHASE in 1:0, ERR in 2, ERRCODE in 5:3, zero in 7:6 (R32). -/
def statusPort (s : State) : BitVec 8 :=
  (0 : BitVec 2) ++ s.errCode.code ++ BitVec.ofBool s.err ++ s.phase.code

end Sys2Proof.Machine
end

