-- ==== Sys2Proof/Machine/Ports.lean ====
section
/-! DEFINITION. The output ports other than status (Flags.lean) as functions of the state between two commands (R35). They
are views: no register stands behind them (R33). -/

namespace Sys2Proof.Machine

/-- `bytes[63:0]`: the value of BYTES (R34). -/
def bytesPort (s : State) : Word := s.bytes

/-- `digest_valid = (PHASE = FINALIZED)` (R33). -/
def digestValid (s : State) : Bool := decide (s.phase = .finalized)

/-- `digest[127:0]`: A in 63:0, B in 127:64. While `digest_valid = 0` its value has no meaning and the model gives it none
(R33, U8, notes/assumptions/9.md). -/
def digestPort (s : State) : Option (BitVec 128) :=
  if digestValid s then some (s.hash.B ++ s.hash.A) else none

/-- The 16 digest bytes in output order (R33, R106), under the same condition. -/
def digestBytes (s : State) : Option (List Byte) :=
  if digestValid s then some (output s.hash) else none

end Sys2Proof.Machine
end

