-- ==== Sys2Proof/Machine/Pseudo.lean ====
section
/-! DEFINITION. The pseudo-instructions UPDATE and HASH as runs of commands (R80), the assembler's forms (R79), and a run of
a list of commands, one after another whatever each did (R139). -/

namespace Sys2Proof.Machine

/-- The beats of UPDATE: bytes 0 to 7, bytes 8 to 15, …, `ceil(L/8)` of them (R80). -/
def beats (c : List Byte) : List (List Byte) :=
  (List.range ((c.length + 7) / 8)).map fun k => (c.drop (8 * k)).take 8

/-- UPDATE as PUSH commands; the empty chunk expands to nothing (R80). -/
def expandUpdate (c : List Byte) : List Instr := (beats c).map .push

/-- HASH: `INIT <seed> ; UPDATE <bytes> ; FINAL` (R80). -/
def expandHash (seed : Word) (c : List Byte) : List Instr := .init seed :: (expandUpdate c ++ [.final])

/-- The commands of a list executed in order (R130, R139). -/
def execAll : List Instr → State → Host.Outcome State Fault Refusal
  | [], s => .next s
  | i :: is, s =>
    match exec i s with
    | .next s' => execAll is s'
    | .fault f => .fault f
    | .refused r => .refused r

/-- The host's drive that presents one command word (R186). -/
def present (w : CmdWord) : HostDrive := { rst := false, cmdValid := true, cmd := w }

/-- The state with a host's list of command words given to it (R27; notes/assumptions/4.md). -/
def State.load (s : State) (ws : List CmdWord) : State := { s with host := ws.map present }

/-! ### The assembler (R79) -/

/-- The forms of a line of the assembler (R79, R80), their operands already read (AsmText.lean) as numbers,
characters or byte values (notes/assumptions/7.md). -/
inductive AsmLine where
  | nop
  | init (seed : Nat)
  | push (n : Nat) (payload : Nat)
  | pushChars (chars : List Char)
  | pushBytes (bytes : List Nat)
  | final
  | update (bytes : List Byte)
  | hash (seed : Word) (bytes : List Byte)
deriving DecidableEq, Repr

/-- A byte value, or nothing if the number is above 255. -/
def asByte (v : Nat) : Option Byte := if v < 256 then some (BitVec.ofNat 8 v) else none

/-- The code of an ASCII character (R79). -/
def asciiByte (c : Char) : Option Byte := if c.toNat < 128 then some (BitVec.ofNat 8 c.toNat) else none

/-- The commands a line stands for, or nothing if an operand is outside its range: seed and payload below 2^64, `n` 0 to 8,
1 to 8 ASCII characters, 0 to 8 byte values (R79). -/
def assemble : AsmLine → Option (List Instr)
  | .nop => some [.nop]
  | .init seed => if seed < 2 ^ 64 then some [.init (BitVec.ofNat 64 seed)] else none
  | .push n payload =>
    if n ≤ maxBeat ∧ payload < 2 ^ 64 then some [.push (pushData n (BitVec.ofNat 64 payload))] else none
  | .pushChars chars =>
    if 1 ≤ chars.length ∧ chars.length ≤ maxBeat then (chars.mapM asciiByte).map fun d => [.push d] else none
  | .pushBytes bytes =>
    if bytes.length ≤ maxBeat then (bytes.mapM asByte).map fun d => [.push d] else none
  | .final => some [.final]
  | .update bytes => some (expandUpdate bytes)
  | .hash seed bytes => some (expandHash seed bytes)

/-- The command words of a line; the ignored lanes of PUSH are zeros (R79). -/
def assembleWords (l : AsmLine) : Option (List CmdWord) := (assemble l).map (List.map encode)

end Sys2Proof.Machine
end

