-- ==== Sys2Proof/Machine/Reference.lean ====
section
/-! DEFINITION. The reference semantics the spec gives beside the commands: the one-shot hash as a pure function (R107) and
TMH's `Update` for a chunk of any length (R135). No command calls them; the laws of spec/41_engine_commands.md section 4
compare the engine with them. -/

namespace Sys2Proof.Machine

/-- The state words of MH128 after the whole blocks of a message: SEEDINIT, then MIX32 of block `0, 1, …` (R107, steps 1
to 3). -/
def absorb (seed : Word) (m : List Byte) : HashState := mixBlocks m (m.length / 32) (seedInit seed)

/-- The last `L mod 32` bytes of a message of `L` bytes (R107, step 5). -/
def residue (m : List Byte) : List Byte := m.drop (32 * (m.length / 32))

/-- `MH128(seed, m)` (R107). -/
def mh128 (seed : Word) (m : List Byte) : List Byte :=
  output (finalHash (decide (32 ≤ m.length)) (residue m) (absorb seed m))

/-- The bulk part of Update: MIX32 of each whole block of `c` taken directly from it, then the leftover bytes to the start
of CARRY, then BYTES grows by the chunk's whole length `n` (R135). -/
def updateBulk (n : Nat) (c : List Byte) (s : State) : Except Fault State :=
  match writeBytes s.carry 0 (c.drop (32 * (c.length / 32))) with
  | .error f => .error f
  | .ok m =>
    .ok { s with
      hash := mixBlocks c (c.length / 32) s.hash
      carry := m
      bytes := s.bytes + BitVec.ofNat 64 n }

/-- UPDATE: the reference semantics of TMH's `Update` for a chunk of any length, in ACTIVE with `BYTES + L < 2^64` (R135). -/
def update (c : List Byte) (s : State) : Except Fault State :=
  if s.fill = 0 then updateBulk c.length c s
  else
    let t := min (32 - s.fill) c.length
    match writeBytes s.carry s.fill (c.take t) with
    | .error f => .error f
    | .ok m =>
      let s' := { s with carry := m }
      if s.fill + t < 32 then .ok { s' with bytes := s.bytes + BitVec.ofNat 64 c.length }
      else
        match mixCarry s' with
        | .error f => .error f
        | .ok s'' => updateBulk c.length (c.drop t) s''

end Sys2Proof.Machine
end

