-- ==== Sys2Proof/Safety.lean ====
section
/-! DEFINITION. The terms in which claims about MH128E are stated: the invariant of every reachable state, what it means
that the engine holds a message, which command words are rejected and why, and when two states cannot be told apart. -/

namespace Sys2Proof.Machine

/-- The bytes of CARRY below `n` hold these values. -/
def CarryHolds (m : List Host.Cell) (n : Nat) (b : Nat → Byte) : Prop :=
  ∀ i < n, Memory.get? m i = some (b i)

/-- The bytes of CARRY below `n` hold some value. -/
def CarryReadable (m : List Host.Cell) (n : Nat) : Prop :=
  ∀ i < n, (Memory.get? m i).isSome

/-- What every state holds that a run from reset reaches. -/
structure EngineInv (s : State) : Prop where
  /-- CARRY is in its canonical form. -/
  carryForm : Memory.wf s.carry = true
  /-- In ACTIVE the first FILL bytes of CARRY are valid, so they hold values (R25). -/
  fillReadable : s.phase = .active → CarryReadable s.carry s.fill
  /-- BYTES reads 0 after reset and after FINAL (R34). -/
  bytesZero : s.phase ≠ .active → s.bytes = 0
  /-- ERRCODE is NONE exactly while no command has been rejected since reset (R31). -/
  errCodeNone : s.errCode = .none ↔ s.err = false

/-- The engine, seeded with `seed`, holds the message `m` so far (R25, R137): the state words are those of MH128 after
`floor(|m|/32)` blocks, BYTES is `|m|`, and the valid bytes of CARRY are the last `|m| mod 32` bytes of `m`. -/
structure Holds (seed : Word) (m : List Byte) (s : State) : Prop where
  phase : s.phase = .active
  hash : s.hash = absorb seed m
  bytes : s.bytes.toNat = m.length
  carry : ∀ i < m.length % 32, Memory.get? s.carry i = m[m.length - m.length % 32 + i]?

/-- The ILLFMT condition on a word's fields (R165). -/
def IllegalFormat (w : CmdWord) : Prop :=
  (opField w = 0 ∧ (nField w ≠ 0 ∨ payloadField w ≠ 0)) ∨ (opField w = 1 ∧ nField w ≠ 0) ∨
    (opField w = 2 ∧ 9 ≤ (nField w).toNat) ∨ (opField w = 3 ∧ (nField w ≠ 0 ∨ payloadField w ≠ 0))

/-- A word is rejected, and why: the checks of R161 in the order of R168, each on the fields of the word and the state, not
through the decoder. -/
inductive Rejected (w : CmdWord) (s : State) : Cause → Prop where
  | illop (h : 4 ≤ (opField w).toNat) : Rejected w s .illop
  | illfmt (h : IllegalFormat w) : Rejected w s .illfmt
  | seq (hw : ¬ IllegalFormat w) (hop : opField w = 2 ∨ opField w = 3) (hp : s.phase ≠ .active) : Rejected w s .seq
  | lenovf (hw : ¬ IllegalFormat w) (hop : opField w = 2) (hp : s.phase = .active)
      (hn : 2 ^ 64 ≤ s.bytes.toNat + (nField w).toNat) : Rejected w s .lenovf

/-- A word is accepted: no check fails. -/
def Accepted (w : CmdWord) (s : State) : Prop := ∀ c, ¬ Rejected w s c

/-- The next sampling is one at which the engine takes the word `w`. -/
def Presents (s : State) (w : CmdWord) : Prop :=
  ∃ d rest, s.host = d :: rest ∧ d.rst = false ∧ d.cmdValid = true ∧ d.cmd = w

/-- The next sampling is not one with `rst` high. -/
def NoReset (s : State) : Prop := ∀ d ∈ s.host.head?, d.rst = false

/-- The data bytes of a list of commands, concatenated in order (R137). -/
def dataOf : List Instr → List Byte
  | [] => []
  | .push d :: is => d ++ dataOf is
  | .nop :: is => dataOf is
  | .init _ :: is => dataOf is
  | .final :: is => dataOf is

/-- A command that may stand between INIT and FINAL of one hash: NOP, or PUSH of 0 to 8 bytes (R137). -/
def Feeds : Instr → Prop
  | .nop => True
  | .push d => d.length ≤ maxBeat
  | .init _ => False
  | .final => False

/-- An outcome with its next state changed. -/
def onNext (f : State → State) : Host.Outcome State Fault Refusal → Host.Outcome State Fault Refusal
  | .next s => .next (f s)
  | .fault g => .fault g
  | .refused r => .refused r

/-- A state with the two flags as after reset, to compare all the rest. -/
def clearErr (s : State) : State := { s with err := false, errCode := .none }

/-- A state with other words in C and D. -/
def withCD (c d : Word) (s : State) : State := { s with hash := { s.hash with C := c, D := d } }

/-- Two states differ only in what the spec says no command sequence can observe: the words of A to D and the bytes of
CARRY while they hold no value (R182), CARRY at and above FILL (R36), all of CARRY outside ACTIVE, and C and D in
FINALIZED, which no port shows (R23). -/
structure Indistinguishable (s t : State) : Prop where
  bytes : s.bytes = t.bytes
  phase : s.phase = t.phase
  err : s.err = t.err
  errCode : s.errCode = t.errCode
  host : s.host = t.host
  pc : s.pc = t.pc
  resets : s.resets = t.resets
  hash : s.phase = .active → s.hash = t.hash
  digest : s.phase = .finalized → s.hash.A = t.hash.A ∧ s.hash.B = t.hash.B
  carry : s.phase = .active → ∀ i < s.fill, Memory.get? s.carry i = Memory.get? t.carry i

/-- Two outcomes that cannot be told apart: next states that cannot, or the same stop. -/
def SameOutcome : Host.Outcome State Fault Refusal → Host.Outcome State Fault Refusal → Prop
  | .next s, .next t => Indistinguishable s t
  | .fault f, .fault g => f = g
  | .refused q, .refused r => q = r
  | _, _ => False

end Sys2Proof.Machine
end

