-- ==== Sys2Proof/Certificates/Slice0/Obligations.lean ====
section
/-! DEFINITION. The statements for the provers, from the numbered rules of spec/. A docstring names the rule it formalises;
where a clause rests on a choice of the model it names the log entry. -/

open Sys2Proof Sys2Proof.Machine

/-! ### Decoding and encoding -/

/-- A sanity check on words written out from the fields of R70 to R75 (also rows of spec/95_test_vectors.md 4.1). -/
def Obligations.SampleWordsDecode : Prop :=
  decode 0x000000000000000000 = .ok .nop ∧
  decode 0x10FFFFFFFFFFFFFFFF = .ok (.init 0xFFFFFFFFFFFFFFFF) ∧
  decode 0x23DEADBEEF00636261 = .ok (.push [0x61, 0x62, 0x63]) ∧
  decode 0x300000000000000000 = .ok .final ∧
  decode 0x010000000000000000 = .error .illfmt ∧
  decode 0x290000000000000000 = .error .illfmt ∧
  decode 0x400000000000000000 = .error .illop

/-- Decoding the word of a well-formed command gives the command back, every operand at every value (R72 to R76). -/
def Obligations.DecodeOfEncodeIsTheCommand : Prop :=
  ∀ i : Instr, WellFormed i = true → decode (encode i) = .ok i

/-- A decoded command is well formed, and its word is the one decoded but for the lanes of PUSH at and above `n`, which are
zero in it (R74, R78). -/
def Obligations.EncodeOfDecodeIsTheWordRead : Prop :=
  ∀ (w : CmdWord) (i : Instr), decode w = .ok i →
    WellFormed i = true ∧
    match i with
    | .push d =>
      opField w = 2 ∧ (nField w).toNat = d.length ∧ opField (encode i) = opField w ∧ nField (encode i) = nField w ∧
      (∀ k < d.length, lane (payloadField (encode i)) k = lane (payloadField w) k) ∧
      (∀ k, d.length ≤ k → k < 8 → lane (payloadField (encode i)) k = 0)
    | .nop => encode i = w
    | .init _ => encode i = w
    | .final => encode i = w

/-- Decoding is total and refuses exactly the reserved and malformed words, each by its cause (R76, R77). -/
def Obligations.DecodeRefusesReservedAndMalformed : Prop :=
  ∀ w : CmdWord,
    (decode w = .error .illop ↔ 4 ≤ (opField w).toNat) ∧
    (decode w = .error .illfmt ↔ IllegalFormat w)

/-- The decoder agrees with the opcode table: a decoded word selects the row of its command and no other; a refused word
selects no row, and its cause is ILLOP exactly if `op >= 4` (R76, its second reading). -/
def Obligations.DecodeAgreesWithOpcodeTable : Prop :=
  ∀ w : CmdWord,
    match decode w with
    | .ok i => (opcodeRows.filter (·.selects w)).map OpcodeRow.mnemonic = [rowName i]
    | .error e => opcodeRows.filter (·.selects w) = [] ∧ (e = .illop ↔ 4 ≤ (opField w).toNat)

/-- Two PUSH words that differ only in lanes at and above `n` are the same command (R74, R78). -/
def Obligations.PushIgnoresLanesAtAndAboveN : Prop :=
  ∀ w w' : CmdWord, opField w = 2 → opField w' = 2 → nField w = nField w' →
    (∀ k < (nField w).toNat, lane (payloadField w) k = lane (payloadField w') k) → decode w = decode w'

/-! ### The step -/

/-- A presented word that decodes runs as its command, on the state with the host's list moved on and the index advanced; an
illegal word is rejected there (R130; the list and the index are the model's, log entries 4 and 5). -/
def Obligations.StepRunsThePresentedCommand : Prop :=
  ∀ (s : State) (w : CmdWord), Presents s w →
    (∀ i, decode w = .ok i → step s = exec i { s with host := s.host.tail, pc := s.pc + 1 }) ∧
    (∀ e, decode w = .error e → step s = .next (rejectIllegal e { s with host := s.host.tail, pc := s.pc + 1 })) ∧
    step s = runWord w { s with host := s.host.tail, pc := s.pc + 1 }

/-- Without a command the engine does nothing: `cmd_valid = 0` (R186), or the host's list exhausted (R187). -/
def Obligations.StepWithoutCommandDoesNothing : Prop :=
  ∀ s : State,
    (s.host = [] → step s = .next s) ∧
    (∀ d rest, s.host = d :: rest → d.rst = false → d.cmdValid = false → step s = .next { s with host := rest })

/-- While `rst` is high no command is accepted and the engine takes the reset state, whatever the state and the command port
were (R180, R181, R188). The words of A to D are free (log entry 1) and no byte of CARRY holds a value (log entry 2). -/
def Obligations.ResetInputTakesTheResetState : Prop :=
  ∀ (s : State) (d : HostDrive) (rest : List HostDrive), s.host = d :: rest → d.rst = true →
    ∃ t, step s = .next t ∧ t.phase = .idle ∧ t.err = false ∧ t.errCode = .none ∧ t.bytes = 0 ∧
      statusPort t = 0 ∧ bytesPort t = 0 ∧ digestValid t = false ∧ digestPort t = none ∧
      (∀ i, Memory.get? t.carry i = none) ∧ t.host = rest ∧ t.pc = s.pc

/-- The values R181 gives the state right after reset, and those of the ports; CARRY holds no value. -/
def Obligations.ResetStateValues : Prop :=
  State.reset.phase = .idle ∧ State.reset.err = false ∧ State.reset.errCode = .none ∧ State.reset.bytes = 0 ∧
  statusPort State.reset = 0x00 ∧ bytesPort State.reset = 0 ∧ digestValid State.reset = false ∧
  digestPort State.reset = none ∧ ∀ i < 32, readByte State.reset.carry i = .error (.carryNoValue i)

/-- Every command, accepted or rejected, is followed by the next one the host sends, and advances the index by exactly 1;
none is a reset (R27, R139; log entry 5). -/
def Obligations.EveryCommandAdvancesByOne : Prop :=
  ∀ (s t : State) (w : CmdWord), Presents s w → step s = .next t →
    t.host = s.host.tail ∧ t.pc = s.pc + 1 ∧ t.resets = s.resets

/-! ### Rejects and the flags -/

/-- A rejected word, whatever its cause, is a next state in which only ERR and ERRCODE are written: ERR is 1, ERRCODE the
cause if ERR was 0 (R162, R163). The causes and their conditions are `Rejected` (R161, R164 to R168). -/
def Obligations.RejectedWordWritesOnlyErr : Prop :=
  ∀ (s : State) (w : CmdWord) (c : Cause), Rejected w s c →
    runWord w s = .next { s with errCode := if s.err then s.errCode else .first c, err := true }

/-- A word reports at most one cause, the first of the checks ILLOP, ILLFMT, SEQ, LENOVF that fails: ILLOP whatever the other
fields and the phase are, ILLFMT in every phase, SEQ even where BYTES would overflow, LENOVF last. So with no reject before
it the ERRCODE a word leaves is its cause, and NONE if no check fails (R164, R165, R168). -/
def Obligations.RejectReportsOneCause : Prop :=
  ∀ (w : CmdWord) (s : State),
    (4 ≤ (opField w).toNat → runWord w s = .next (reject .illop s)) ∧
    (IllegalFormat w → runWord w s = .next (reject .illfmt s)) ∧
    (¬ IllegalFormat w → (opField w = 2 ∨ opField w = 3) → s.phase ≠ .active →
      runWord w s = .next (reject .seq s)) ∧
    (¬ IllegalFormat w → opField w = 2 → s.phase = .active → 2 ^ 64 ≤ s.bytes.toNat + (nField w).toNat →
      runWord w s = .next (reject .lenovf s)) ∧
    (∀ c c', Rejected w s c → Rejected w s c' → c = c') ∧
    (∀ t, s.err = false → s.errCode = .none → runWord w s = .next t →
      (∀ c, t.errCode = .first c ↔ Rejected w s c) ∧ (t.errCode = .none ↔ Accepted w s))

/-- PUSH's validation, in order, on every number of data bytes: ILLFMT, SEQ, LENOVF, each a next state with only the flags
written (R133, R165 to R168). -/
def Obligations.PushValidatesInOrder : Prop :=
  ∀ (s : State) (d : List Byte),
    (8 < d.length → exec (.push d) s = .next (reject .illfmt s)) ∧
    (d.length ≤ 8 → s.phase ≠ .active → exec (.push d) s = .next (reject .seq s)) ∧
    (d.length ≤ 8 → s.phase = .active → 2 ^ 64 ≤ s.bytes.toNat + d.length →
      exec (.push d) s = .next (reject .lenovf s))

/-- FINAL outside ACTIVE is rejected with SEQ (R134, R166). -/
def Obligations.FinalOutsideActiveIsRejected : Prop :=
  ∀ s : State, s.phase ≠ .active →
    exec .final s = .next { s with errCode := if s.err then s.errCode else .first .seq, err := true }

/-- An accepted word writes no flag (41_engine_commands.md, "Common to all"). -/
def Obligations.AcceptedWordWritesNoFlag : Prop :=
  ∀ (s t : State) (w : CmdWord), Presents s w → Accepted w s → step s = .next t →
    t.err = s.err ∧ t.errCode = s.errCode

/-- ERR: reset clears it, any rejected command sets it, nothing else changes it, and no command reads it (R30). -/
def Obligations.ErrIsStickyAndUnread : Prop :=
  (State.reset.err = false ∧
    ∀ s t d rest, s.host = d :: rest → d.rst = true → step s = .next t → t.err = false) ∧
  (∀ s w c, Presents s w → Rejected w s c → ∃ t, step s = .next t ∧ t.err = true) ∧
  (∀ s t, NoReset s → step s = .next t → t.err ≠ s.err → s.err = false ∧ ∃ w c, Presents s w ∧ Rejected w s c) ∧
  (∀ i s e c, onNext clearErr (exec i { s with err := e, errCode := c }) = onNext clearErr (exec i s))

/-- ERRCODE is written only by reset and by a rejected command that finds ERR 0, which records its cause (R31). -/
def Obligations.ErrCodeRecordsTheFirstCause : Prop :=
  (State.reset.errCode = .none ∧
    ∀ s t d rest, s.host = d :: rest → d.rst = true → step s = .next t → t.errCode = .none) ∧
  (∀ s w c, Presents s w → Rejected w s c → s.err = false → ∃ t, step s = .next t ∧ t.errCode = .first c) ∧
  (∀ s t, NoReset s → step s = .next t → t.errCode ≠ s.errCode →
    s.err = false ∧ ∃ w c, Presents s w ∧ Rejected w s c ∧ t.errCode = .first c)

/-! ### The lifecycle -/

/-- The complete list of PHASE transitions (R29). -/
def Obligations.PhaseTransitions : Prop :=
  State.reset.phase = .idle ∧
  ∀ s t : State, step s = .next t →
    (¬ NoReset s → t.phase = .idle) ∧
    (∀ w seed, Presents s w → decode w = .ok (.init seed) → t.phase = .active) ∧
    (∀ w, Presents s w → decode w = .ok .final → s.phase = .active → t.phase = .finalized) ∧
    (NoReset s → (∀ w seed, Presents s w → decode w ≠ .ok (.init seed)) →
      (∀ w, Presents s w → decode w = .ok .final → s.phase ≠ .active) → t.phase = s.phase)

/-- BYTES is the exact count: an accepted PUSH adds `n` to it as a number, without wrap; INIT and FINAL set it to 0 (R26,
R172). -/
def Obligations.BytesCountsDataBytes : Prop :=
  ∀ (s t : State) (w : CmdWord), Presents s w → Accepted w s → step s = .next t →
    (∀ d, decode w = .ok (.push d) → t.bytes.toNat = s.bytes.toNat + d.length) ∧
    (∀ seed, decode w = .ok (.init seed) → t.bytes = 0) ∧
    (decode w = .ok .final → t.bytes = 0)

/-- Without a reset and without an accepted INIT, PUSH or FINAL, a step writes none of A to D, CARRY, BYTES, PHASE
(10_state.md section 1, R131, R163). -/
def Obligations.OnlyAcceptedCommandsWriteTheHash : Prop :=
  ∀ s t : State, NoReset s → (∀ w i, Presents s w → decode w = .ok i → Accepted w s → i = .nop) →
    step s = .next t → t.hash = s.hash ∧ t.carry = s.carry ∧ t.bytes = s.bytes ∧ t.phase = s.phase

/-- CARRY is written by PUSH alone, and only at the indices its bytes go to (R50, R132, R134). -/
def Obligations.OnlyPushWritesCarry : Prop :=
  ∀ s t : State, NoReset s → step s = .next t →
    ((∀ w d, Presents s w → decode w ≠ .ok (.push d)) → t.carry = s.carry) ∧
    (∀ w d i, Presents s w → decode w = .ok (.push d) → (∀ k < d.length, (s.bytes.toNat + k) % 32 ≠ i) →
      readByte t.carry i = readByte s.carry i)

/-- After FINAL the engine accepts only NOP and INIT; PUSH and FINAL are rejected with SEQ, which changes nothing but the
flags, and no word but an INIT leaves FINALIZED (R140). -/
def Obligations.FinalizedAcceptsOnlyNopAndInit : Prop :=
  (∀ (s t : State), s.phase = .active → exec .final s = .next t → t.phase = .finalized) ∧
  ∀ (s : State) (w : CmdWord), s.phase = .finalized →
    (Accepted w s ↔ decode w = .ok .nop ∨ ∃ seed, decode w = .ok (.init seed)) ∧
    ((decode w = .ok .final ∨ ∃ d, decode w = .ok (.push d)) →
      Rejected w s .seq ∧
      runWord w s = .next { s with errCode := if s.err then s.errCode else .first .seq, err := true }) ∧
    ((∀ seed, decode w ≠ .ok (.init seed)) → ∃ t, runWord w s = .next t ∧ t.phase = .finalized)

/-- The digest stays on the port until the next accepted INIT or reset (R33, R187). -/
def Obligations.DigestIsStable : Prop :=
  ∀ s t : State, s.phase = .finalized → NoReset s → (∀ w seed, Presents s w → decode w ≠ .ok (.init seed)) →
    step s = .next t → digestValid t = true ∧ digestPort t = digestPort s ∧ digestBytes t = digestBytes s

/-! ### Invariants -/

/-- The state after reset meets the invariant. -/
def Obligations.ResetMeetsTheInvariant : Prop := EngineInv State.reset

/-- Every step keeps the invariant: CARRY in its canonical form, its first FILL bytes holding values in ACTIVE, BYTES zero
outside ACTIVE, ERRCODE NONE exactly while ERR is 0 (R25, R31, R34). -/
def Obligations.StepKeepsTheInvariant : Prop :=
  ∀ s t : State, EngineInv s → step s = .next t → EngineInv t

/-- From a state that meets the invariant every step answers a next state: the engine never stops, and no byte of CARRY that
holds no value is read (R130, R182). -/
def Obligations.InvariantStepNeverStops : Prop :=
  ∀ s : State, EngineInv s → ∃ t, step s = .next t

/-! ### Memory -/

/-- MemRead is the little-endian sum of the bytes, below 2^(8n), zero-extended (R9, R52). -/
def Obligations.MemReadIsTheLittleEndianSum : Prop :=
  ∀ (m : List Host.Cell) (i : Nat) (n : Width) (b : Nat → Byte), i + n.bytes ≤ 32 →
    (∀ k < n.bytes, Memory.get? m (i + k) = some (b k)) →
    ∃ w, memRead m i n = .ok w ∧ w.toNat = ∑ k ∈ Finset.range n.bytes, (b k).toNat * 256 ^ k ∧
      w.toNat < 2 ^ (8 * n.bytes)

/-- MemWrite stores one byte: it reads back, every other byte reads as before, and the canonical form is kept; an index
outside CARRY does not exist (R53, R58; the form is the model's). -/
def Obligations.MemWriteThenRead : Prop :=
  ∀ (m : List Host.Cell) (i : Nat) (v : Byte),
    (i < 32 → ∃ m', memWrite m i v = .ok m' ∧ readByte m' i = .ok v ∧
      (∀ j, j ≠ i → readByte m' j = readByte m j) ∧ (Memory.wf m = true → Memory.wf m' = true)) ∧
    (32 ≤ i → memWrite m i v = .error (.carryIndex i) ∧ readByte m i = .error (.carryIndex i))

/-- Reading 8 bytes at `i` gives `MemRead(i,4) + 2^32 * MemRead(i+4,4)` (R56, its last sentence). -/
def Obligations.WideReadIsTwoNarrowReads : Prop :=
  ∀ (m : List Host.Cell) (i : Nat) (w : Word), memRead m i .w8 = .ok w →
    ∃ lo hi, memRead m i .w4 = .ok lo ∧ memRead m (i + 4) .w4 = .ok hi ∧ w = lo + 0x100000000 * hi

/-- The reads of the tail pieces, taken from the list of bytes `CARRY[0 .. r-1]`, are `MemRead` of CARRY (R99 to R104). -/
def Obligations.TailReadsAreMemReads : Prop :=
  ∀ (m : List Host.Cell) (r o : Nat) (n : Width) (t : List Byte), readBytes m 0 r = .ok t → o + n.bytes ≤ r →
    memRead m o n = .ok (leAt t o n)

/-! ### Mixing primitives -/

/-- Bit `i` of `rotr(x, r)` is bit `(i + r) mod 64` of `x` (R91). -/
def Obligations.RotrMovesBits : Prop :=
  ∀ (x : Word) (r : Nat) (h : 0 < r ∧ r < 64) (i : Nat), i < 64 →
    (rotr x r h).getLsbD i = x.getLsbD ((i + r) % 64)

/-- MIX32's lines: A and B read C and D from before the block, C and D read the A and B just written (R96, R97). -/
def Obligations.MixBlockLines : Prop :=
  ∀ (w0 w1 w2 w3 : Word) (h : HashState),
    (mix32 w0 w1 w2 w3 h).A = rotr (h.A + K0 * w0) 29 + h.C ∧
    (mix32 w0 w1 w2 w3 h).B = rotr (h.B + K1 * w1) 29 + h.D ∧
    (mix32 w0 w1 w2 w3 h).C = rotr (h.C + K2 * w2) 29 + (mix32 w0 w1 w2 w3 h).A ∧
    (mix32 w0 w1 w2 w3 h).D = rotr (h.D + K3 * w3) 29 + (mix32 w0 w1 w2 w3 h).B

/-- BFIN's lines: the D line uses the new C, the A line the new C and D, the B line the new D and C and the old B (R98). -/
def Obligations.BlockFinalizationLines : Prop :=
  ∀ h : HashState,
    (bfin h).C = h.C ^^^ (K1 * rotr (K0 * (h.A + h.D) + h.B) 21) ∧
    (bfin h).D = h.D ^^^ (K0 * rotr (K1 * (h.B + (bfin h).C) + h.A) 21) ∧
    (bfin h).A = h.A ^^^ (K1 * rotr (K0 * (h.A + (bfin h).C) + (bfin h).D) 21) ∧
    (bfin h).B = h.B ^^^ (K0 * rotr (K1 * (h.B + (bfin h).D) + (bfin h).C) 21)

/-- A tail piece of size `s` is present exactly when bit `log2 s` of `r` is 1, and it starts at the offset made of the higher
set bits of `r` (R99). -/
def Obligations.TailPiecesByTheBitsOfR : Prop :=
  ∀ (t : List Byte) (h : HashState), t.length ≤ 31 →
    let r := t.length
    let h16 := if r.testBit 4 then t16 t 0 h else h
    let h8 := if r.testBit 3 then t8 t (r / 16 * 16) h16 else h16
    let h4 := if r.testBit 2 then t4 t (r / 8 * 8) h8 else h8
    let h2 := if r.testBit 1 then t2 t (r / 4 * 4) h4 else h4
    let h1 := if r.testBit 0 then t1 t (r / 2 * 2) h2 else h2
    tail t h = h1

/-- TAIL reads and writes A and B only; of the pieces, T16 touches A and B, T8 and T2 only A, T4 and T1 only B (R99). -/
def Obligations.TailTouchesAAndBOnly : Prop :=
  (∀ (t : List Byte) (h : HashState), (tail t h).C = h.C ∧ (tail t h).D = h.D) ∧
  (∀ (t : List Byte) (h : HashState) (c d : Word),
    (tail t { h with C := c, D := d }).A = (tail t h).A ∧ (tail t { h with C := c, D := d }).B = (tail t h).B) ∧
  (∀ (t : List Byte) (o : Nat) (h : HashState),
    t16 t o h = { h with A := (t16 t o h).A, B := (t16 t o h).B } ∧ t8 t o h = { h with A := (t8 t o h).A } ∧
    t4 t o h = { h with B := (t4 t o h).B } ∧ t2 t o h = { h with A := (t2 t o h).A } ∧
    t1 t o h = { h with B := (t1 t o h).B })

/-- The lines of the five tail pieces (R100 to R104; their multipliers are the spec's own, from general knowledge, G1). -/
def Obligations.TailPieceLines : Prop :=
  ∀ (t : List Byte) (o : Nat) (h : HashState),
    (∃ a b, a = K3 * rotr (h.A + K2 * leAt t o .w8) 33 ∧ b = K3 * rotr (h.B + K2 * leAt t (o + 8) .w8) 33 ∧
      (t16 t o h).A = a ^^^ (K1 * rotr (K2 * a + b) 45) ∧
      (t16 t o h).B = b ^^^ (K0 * rotr (K3 * b + (t16 t o h).A) 45)) ∧
    (∃ a, a = K3 * rotr (h.A + K2 * leAt t o .w8) 33 ∧ (t8 t o h).A = a ^^^ (K1 * rotr (K2 * a + h.B) 27)) ∧
    (∃ b, b = K3 * rotr (h.B + K2 * leAt t o .w4) 33 ∧ (t4 t o h).B = b ^^^ (K0 * rotr (K3 * b + h.A) 46)) ∧
    (∃ a, a = K3 * rotr (h.A + K2 * leAt t o .w2) 33 ∧ (t2 t o h).A = a ^^^ (K1 * rotr (K2 * a + h.B) 22)) ∧
    (∃ b, b = K3 * rotr (h.B + K2 * leAt t o .w1) 33 ∧ (t1 t o h).B = b ^^^ (K0 * rotr (K3 * b + h.A) 58))

/-- AVAL's four lines, each with the just-updated value of the other word; C and D are not touched, and `A = B = 0` stays 0
(R105). -/
def Obligations.AvalancheLines : Prop :=
  ∀ h : HashState,
    (∃ a1 b1, a1 = h.A + rotr (K0 * h.A + h.B) 13 ∧ b1 = h.B + rotr (K1 * h.B + a1) 37 ∧
      (aval h).A = a1 + rotr (K2 * a1 + b1) 13 ∧ (aval h).B = b1 + rotr (K3 * b1 + (aval h).A) 37) ∧
    (aval h).C = h.C ∧ (aval h).D = h.D ∧
    (h.A = 0 → h.B = 0 → (aval h).A = 0 ∧ (aval h).B = 0)

/-! ### The commands -/

/-- NOP completes in every state and every field keeps its value; its word only moves the host's list on (R131). -/
def Obligations.NopLeavesTheState : Prop :=
  (∀ s : State, exec .nop s = .next s) ∧
  (∀ s : State, Presents s 0x000000000000000000 → step s = .next { s with host := s.host.tail, pc := s.pc + 1 })

/-- INIT completes in every phase: the four state words by SEEDINIT, BYTES 0, PHASE ACTIVE, and nothing else written (R95,
R132). -/
def Obligations.InitCompletes : Prop :=
  ∀ (seed : Word) (s : State),
    exec (.init seed) s = .next { s with
      hash := { A := K3 * (seed - K0), B := K2 * (K1 + seed), C := K2 * (K0 + seed), D := K3 * (seed - K1) }
      bytes := 0
      phase := .active }

/-- PUSH completes in ACTIVE when BYTES does not overflow and, if it completes a block, the valid bytes of CARRY hold values:
data byte `k` goes to `CARRY[(BYTES + k) mod 32]`, BYTES grows by `n`, MIX32 runs once if a block completes, on the block's
32 bytes; everything else is as before, every other byte of CARRY too (R133). -/
def Obligations.PushStoresAndMixes : Prop :=
  ∀ (s : State) (d : List Byte) (b : Nat → Byte), s.phase = .active → d.length ≤ 8 →
    s.bytes.toNat + d.length < 2 ^ 64 → (32 ≤ s.fill + d.length → CarryHolds s.carry s.fill b) →
    ∃ t, exec (.push d) s = .next t ∧
      t.bytes.toNat = s.bytes.toNat + d.length ∧
      (∀ k (hk : k < d.length), readByte t.carry ((s.bytes.toNat + k) % 32) = .ok d[k]) ∧
      (∀ i, (∀ k < d.length, (s.bytes.toNat + k) % 32 ≠ i) → readByte t.carry i = readByte s.carry i) ∧
      t.hash = (if s.fill + d.length < 32 then s.hash
        else mixBlock ((List.range s.fill).map b ++ d.take (32 - s.fill)) 0 s.hash) ∧
      t.phase = .active ∧ t.err = s.err ∧ t.errCode = s.errCode ∧ t.host = s.host ∧ t.pc = s.pc ∧
      t.resets = s.resets

/-- PUSH of no byte in ACTIVE changes nothing (R133, D19). -/
def Obligations.EmptyPushChangesNothing : Prop :=
  ∀ s : State, s.phase = .active → exec (.push []) s = .next s

/-- FINAL completes in ACTIVE when the valid bytes of CARRY hold values: BFIN if `BYTES >= 32`, TAIL of the first FILL bytes
of CARRY, AVAL; BYTES 0, PHASE FINALIZED, and nothing else written (R134). -/
def Obligations.FinalCompletes : Prop :=
  ∀ (s : State) (b : Nat → Byte), s.phase = .active → CarryHolds s.carry s.fill b →
    exec .final s = .next { s with
      hash := aval (tail ((List.range s.fill).map b) (if 32 ≤ s.bytes.toNat then bfin s.hash else s.hash))
      bytes := 0
      phase := .finalized }

/-- Where a byte of CARRY that FINAL, or a PUSH that completes a block, has to read holds no value, the model stops at the
first such byte (R182 lets the read fault and calls it unreachable; log entry 2). -/
def Obligations.ReadOfNoValueFaults : Prop :=
  ∀ (s : State) (i : Nat), s.phase = .active → i < s.fill → (∀ j < i, (Memory.get? s.carry j).isSome) →
    Memory.get? s.carry i = none →
    exec .final s = .fault (.carryNoValue i) ∧
    ∀ d : List Byte, d.length ≤ 8 → s.bytes.toNat + d.length < 2 ^ 64 → 32 ≤ s.fill + d.length →
      exec (.push d) s = .fault (.carryNoValue i)

/-! ### The ports -/

/-- The fields of the status port and its value after reset (R32): PHASE reads 0 in IDLE, 1 in ACTIVE, 2 in FINALIZED (R28),
ERRCODE reads 0 for NONE and 1 to 4 for ILLOP, ILLFMT, SEQ, LENOVF (R161). -/
def Obligations.StatusPortFields : Prop :=
  statusPort State.reset = 0 ∧ ∀ s : State,
    (statusPort s).extractLsb' 0 2 =
      (match s.phase with
      | .idle => 0
      | .active => 1
      | .finalized => 2) ∧
    (statusPort s).getLsbD 2 = s.err ∧
    (statusPort s).extractLsb' 3 3 =
      (match s.errCode with
      | .none => 0
      | .first .illop => 1
      | .first .illfmt => 2
      | .first .seq => 3
      | .first .lenovf => 4) ∧
    (statusPort s).extractLsb' 6 2 = 0

/-- The bytes port is the value of BYTES in every state; it reads 0 after reset, after INIT and after FINAL (R34). -/
def Obligations.BytesPortShowsBytes : Prop :=
  (∀ s : State, bytesPort s = s.bytes) ∧
  bytesPort State.reset = 0 ∧
  (∀ s t d rest, s.host = d :: rest → d.rst = true → step s = .next t → bytesPort t = 0) ∧
  (∀ s t w seed, decode w = .ok (.init seed) → runWord w s = .next t → bytesPort t = 0) ∧
  (∀ s t w, decode w = .ok .final → Accepted w s → runWord w s = .next t → bytesPort t = 0)

/-- The digest port: A in 63:0, B in 127:64, digest byte `i` at `8i+7:8i`, the little-endian bytes of A and then of B; valid,
and of any meaning, exactly in FINALIZED (R33, R56, R106). -/
def Obligations.DigestPortBytes : Prop :=
  ∀ s : State,
    (digestValid s = true ↔ s.phase = .finalized) ∧
    (s.phase ≠ .finalized → digestPort s = none ∧ digestBytes s = none) ∧
    (s.phase = .finalized → ∃ v, digestPort s = some v ∧ v.extractLsb' 0 64 = s.hash.A ∧
      v.extractLsb' 64 64 = s.hash.B ∧ digestBytes s = some ((List.range 16).map fun i => v.extractLsb' (8 * i) 8))

/-! ### The laws of the hash -/

/-- An accepted PUSH takes the engine from holding the message `m` to holding `m` followed by its bytes (R25, R133, R137). -/
def Obligations.PushExtendsTheMessage : Prop :=
  ∀ (seed : Word) (m d : List Byte) (s : State), Holds seed m s → d.length ≤ 8 → m.length + d.length < 2 ^ 64 →
    ∃ t, exec (.push d) s = .next t ∧ Holds seed (m ++ d) t

/-- Chunking equivalence: INIT, then any PUSH and NOP commands with the data bytes `m` in order, then FINAL, leaves the digest
`MH128(seed, m)`, for every way of cutting `m` into beats, from every state; before FINAL the engine holds `m` (R137). -/
def Obligations.ChunkingEquivalence : Prop :=
  ∀ (seed : Word) (cs : List Instr) (s : State), (∀ i ∈ cs, Feeds i) → (dataOf cs).length < 2 ^ 64 →
    (∃ u, execAll (.init seed :: cs) s = .next u ∧ Holds seed (dataOf cs) u) ∧
    ∃ t, execAll (.init seed :: (cs ++ [.final])) s = .next t ∧ digestBytes t = some (mh128 seed (dataOf cs))

/-- The two known vectors of the source: 63 characters of "0123456789" repeated, seeds 0 and 1 (95_test_vectors.md section 1,
90_conflicts.md C1). -/
def Obligations.KnownVectors : Prop :=
  let m : List Byte := (List.range 63).map fun i => BitVec.ofNat 8 (0x30 + i % 10)
  mh128 0 m = [0xC7, 0x7C, 0xE2, 0xBF, 0xA4, 0xED, 0x9F, 0x9B, 0x05, 0x48, 0xB2, 0xAC, 0x50, 0x74, 0xA2, 0x97] ∧
  mh128 1 m = [0x45, 0xA3, 0xCD, 0xB8, 0x38, 0x19, 0x9D, 0x7F, 0xBD, 0xD6, 0x8D, 0x86, 0x7A, 0x14, 0xEC, 0xEF]

/-- UPDATE: every cut of a chunk into beats leaves the same A to D, the same BYTES, the same valid bytes of CARRY and all else
as the reference semantics of TMH's Update (R135). -/
def Obligations.BeatsAgreeWithUpdate : Prop :=
  ∀ (s : State) (c : List Byte) (ds : List (List Byte)), s.phase = .active → CarryReadable s.carry s.fill →
    s.bytes.toNat + c.length < 2 ^ 64 → ds.flatten = c → (∀ d ∈ ds, d.length ≤ 8) →
    ∃ t u, execAll (ds.map .push) s = .next t ∧ update c s = .ok u ∧
      (∀ i < t.fill, readByte t.carry i = readByte u.carry i) ∧ t = { u with carry := t.carry }

/-- HASH from any state: PHASE FINALIZED, BYTES 0, and the digest `MH128(seed, bytes)` (R136). -/
def Obligations.HashLeavesTheDigest : Prop :=
  ∀ (seed : Word) (m : List Byte) (s : State), m.length < 2 ^ 64 →
    ∃ t, execAll (expandHash seed m) s = .next t ∧ t.phase = .finalized ∧ t.bytes = 0 ∧
      digestBytes t = some (mh128 seed m)

/-- Empty input: INIT, any number of PUSH of no byte, FINAL gives `MH128(seed, [])`, by AVAL only (R138). -/
def Obligations.EmptyInputRunsAvalOnly : Prop :=
  ∀ (seed : Word) (k : Nat) (s : State),
    execAll (.init seed :: (List.replicate k (.push []) ++ [.final])) s =
      .next { s with hash := aval (seedInit seed), bytes := 0, phase := .finalized } ∧
    mh128 seed [] = output (aval (seedInit seed))

/-- UPDATE expands to `ceil(L/8)` beats that concatenate to the chunk, all but the last of 8 bytes, none empty (R80). -/
def Obligations.UpdateExpansion : Prop :=
  ∀ c : List Byte,
    expandUpdate c = (beats c).map .push ∧ (beats c).flatten = c ∧ (beats c).length = (c.length + 7) / 8 ∧
    (∀ d ∈ beats c, 1 ≤ d.length ∧ d.length ≤ 8) ∧
    (∀ k d, (beats c)[k]? = some d → k + 1 < (beats c).length → d.length = 8)

/-- The assembler's `PUSH n, payload` is one word with the payload's lanes below `n` and zeros in the others (R79). -/
def Obligations.AssemblerWritesZeroLanes : Prop :=
  ∀ n payload : Nat, n ≤ 8 → payload < 2 ^ 64 →
    ∃ w, assembleWords (.push n payload) = some [w] ∧ opField w = 2 ∧ (nField w).toNat = n ∧
      (∀ k < n, lane (payloadField w) k = lane (BitVec.ofNat 64 payload) k) ∧
      (∀ k, n ≤ k → k < 8 → lane (payloadField w) k = 0)

/-- For a message shorter than 32 bytes the values of C and D never influence A, B or the digest: FINAL, and a PUSH that
stays below 32 bytes, do the same whatever C and D hold (R21). -/
def Obligations.ShortMessageIgnoresCAndD : Prop :=
  ∀ (s : State) (i : Instr) (c d : Word), s.phase = .active → s.bytes.toNat < 32 →
    (i = .final ∨ ∃ x, i = .push x ∧ s.bytes.toNat + x.length < 32) →
    exec i (withCD c d s) = onNext (withCD c d) (exec i s)

/-- What no command sequence can observe stays unobserved: from two states that differ only in words and bytes that hold no
value, in stale bytes of CARRY, and in C and D after FINAL, every step has the same outcome up to such differences (R23,
R36, R182; the reset words of log entry 1 among them). -/
def Obligations.StepKeepsIndistinguishability : Prop :=
  ∀ s t : State, Indistinguishable s t → SameOutcome (step s) (step t)

/-- Indistinguishable states show the same on every port (R32 to R36). -/
def Obligations.IndistinguishableStatesShowTheSamePorts : Prop :=
  ∀ s t : State, Indistinguishable s t →
    statusPort s = statusPort t ∧ bytesPort s = bytesPort t ∧ digestValid s = digestValid t ∧
    digestPort s = digestPort t ∧ digestBytes s = digestBytes t
end

