-- ==== Sys2Proof/Laws/State.lean ====
section
/-! SUPPORT. The small lemmas of the state's named updates, one per field and update, each true by definition, so that no
proof unfolds a record update. -/

namespace Sys2Proof.Machine

@[simp] theorem reject_hash (c : Cause) (s : State) : (reject c s).hash = s.hash := rfl
@[simp] theorem reject_carry (c : Cause) (s : State) : (reject c s).carry = s.carry := rfl
@[simp] theorem reject_bytes (c : Cause) (s : State) : (reject c s).bytes = s.bytes := rfl
@[simp] theorem reject_phase (c : Cause) (s : State) : (reject c s).phase = s.phase := rfl
@[simp] theorem reject_err (c : Cause) (s : State) : (reject c s).err = true := rfl
@[simp] theorem reject_errCode (c : Cause) (s : State) :
    (reject c s).errCode = if s.err then s.errCode else .first c := rfl
@[simp] theorem reject_host (c : Cause) (s : State) : (reject c s).host = s.host := rfl
@[simp] theorem reject_pc (c : Cause) (s : State) : (reject c s).pc = s.pc := rfl
@[simp] theorem reject_resets (c : Cause) (s : State) : (reject c s).resets = s.resets := rfl
@[simp] theorem reject_fill (c : Cause) (s : State) : (reject c s).fill = s.fill := rfl

@[simp] theorem rejectIllegal_eq (e : Illegal) (s : State) : rejectIllegal e s = reject (illegalCause e) s := rfl

@[simp] theorem takeCommand_hash (s : State) : (takeCommand s).hash = s.hash := rfl
@[simp] theorem takeCommand_carry (s : State) : (takeCommand s).carry = s.carry := rfl
@[simp] theorem takeCommand_bytes (s : State) : (takeCommand s).bytes = s.bytes := rfl
@[simp] theorem takeCommand_phase (s : State) : (takeCommand s).phase = s.phase := rfl
@[simp] theorem takeCommand_err (s : State) : (takeCommand s).err = s.err := rfl
@[simp] theorem takeCommand_errCode (s : State) : (takeCommand s).errCode = s.errCode := rfl
@[simp] theorem takeCommand_host (s : State) : (takeCommand s).host = s.host.tail := rfl
@[simp] theorem takeCommand_pc (s : State) : (takeCommand s).pc = s.pc + 1 := rfl
@[simp] theorem takeCommand_resets (s : State) : (takeCommand s).resets = s.resets := rfl
@[simp] theorem takeCommand_fill (s : State) : (takeCommand s).fill = s.fill := rfl

@[simp] theorem dropDrive_hash (s : State) : (dropDrive s).hash = s.hash := rfl
@[simp] theorem dropDrive_carry (s : State) : (dropDrive s).carry = s.carry := rfl
@[simp] theorem dropDrive_bytes (s : State) : (dropDrive s).bytes = s.bytes := rfl
@[simp] theorem dropDrive_phase (s : State) : (dropDrive s).phase = s.phase := rfl
@[simp] theorem dropDrive_err (s : State) : (dropDrive s).err = s.err := rfl
@[simp] theorem dropDrive_errCode (s : State) : (dropDrive s).errCode = s.errCode := rfl
@[simp] theorem dropDrive_host (s : State) : (dropDrive s).host = s.host.tail := rfl
@[simp] theorem dropDrive_pc (s : State) : (dropDrive s).pc = s.pc := rfl
@[simp] theorem dropDrive_resets (s : State) : (dropDrive s).resets = s.resets := rfl
@[simp] theorem dropDrive_fill (s : State) : (dropDrive s).fill = s.fill := rfl

@[simp] theorem resetEngine_hash (s : State) : (resetEngine s).hash = hashAfterReset (s.resets + 1) := rfl
@[simp] theorem resetEngine_carry (s : State) : (resetEngine s).carry = [] := rfl
@[simp] theorem resetEngine_bytes (s : State) : (resetEngine s).bytes = 0 := rfl
@[simp] theorem resetEngine_phase (s : State) : (resetEngine s).phase = .idle := rfl
@[simp] theorem resetEngine_err (s : State) : (resetEngine s).err = false := rfl
@[simp] theorem resetEngine_errCode (s : State) : (resetEngine s).errCode = .none := rfl
@[simp] theorem resetEngine_host (s : State) : (resetEngine s).host = s.host := rfl
@[simp] theorem resetEngine_pc (s : State) : (resetEngine s).pc = s.pc := rfl
@[simp] theorem resetEngine_resets (s : State) : (resetEngine s).resets = s.resets + 1 := rfl

theorem fill_lt (s : State) : s.fill < 32 := Nat.mod_lt _ (by decide)

end Sys2Proof.Machine
end

