-- ==== Sys2Proof/Laws/Memory.lean ====
section
/-! SUPPORT. What the operations on the carry buffer can do: a read after a write, the canonical form kept, and for each
read and write what it answers. -/

namespace Sys2Proof.Machine

/-! ### The list of cells -/

@[simp] theorem get?_nil (i : Nat) : Memory.get? [] i = none := rfl

/-- A read after a write gives the byte written, and a write leaves every other byte alone. -/
theorem get?_set (m : List Host.Cell) (i : Nat) (b : Byte) (j : Nat) :
    Memory.get? (Memory.set m i b) j = if i = j then some b else Memory.get? m j := by
  induction m with
  | nil => simp [Memory.set, Memory.get?]
  | cons cell m ih =>
    obtain ⟨a, c⟩ := cell
    simp only [Memory.set]
    split
    · simp [Memory.get?]
    · split
      · next _ h => subst h; by_cases hj : i = j <;> simp [Memory.get?, hj]
      · by_cases hj : a = j
        · have : ¬ i = j := by omega
          simp [Memory.get?, hj, this]
        · simp [Memory.get?, hj, ih]

theorem risingFrom_set {m : List Host.Cell} {lo i : Nat} (b : Byte) (hm : Memory.risingFrom lo m = true)
    (hlo : lo ≤ i) (hi : i < carrySize) : Memory.risingFrom lo (Memory.set m i b) = true := by
  induction m generalizing lo with
  | nil => simp [Memory.set, Memory.risingFrom, hlo, hi]
  | cons cell m ih =>
    obtain ⟨a, c⟩ := cell
    simp only [Memory.risingFrom, Bool.and_eq_true, decide_eq_true_eq] at hm
    simp only [Memory.set]
    split
    · next h => simp [Memory.risingFrom, hlo, hi, hm.1.2, hm.2]; omega
    · split
      · next h => subst h; simp [Memory.risingFrom, hlo, hi, hm.2]
      · simp [Memory.risingFrom, hm.1, ih hm.2 (by omega)]

/-- A byte write keeps the canonical form. -/
theorem wf_set {m : List Host.Cell} {i : Nat} (b : Byte) (hm : Memory.wf m = true) (hi : i < carrySize) :
    Memory.wf (Memory.set m i b) = true := risingFrom_set b hm (Nat.zero_le i) hi

theorem wf_nil : Memory.wf [] = true := rfl

/-- The canonical form holds right after reset. -/
theorem reset_carry_wf : Memory.wf State.reset.carry = true := rfl

/-! ### Byte reads and writes -/

theorem readByte_eq_ok {m : List Host.Cell} {i : Nat} {b : Byte} :
    readByte m i = .ok b ↔ i < carrySize ∧ Memory.get? m i = some b := by
  unfold readByte
  split
  · next h => cases hg : Memory.get? m i <;> simp [h]
  · next h => simp [h]

theorem memWrite_ok {m : List Host.Cell} {i : Nat} (b : Byte) (hi : i < carrySize) :
    memWrite m i b = .ok (Memory.set m i b) := by simp [memWrite, hi]

theorem memWrite_eq_ok {m m' : List Host.Cell} {i : Nat} {b : Byte} :
    memWrite m i b = .ok m' ↔ i < carrySize ∧ m' = Memory.set m i b := by
  unfold memWrite
  split
  · next h => simp [h, eq_comm]
  · next h => simp [h]

/-- `memWrite` keeps the canonical form. -/
theorem memWrite_wf {m m' : List Host.Cell} {i : Nat} {b : Byte} (hm : Memory.wf m = true)
    (h : memWrite m i b = .ok m') : Memory.wf m' = true := by
  obtain ⟨hi, rfl⟩ := memWrite_eq_ok.mp h
  exact wf_set b hm hi

/-! ### Runs of bytes -/

/-- `readBytes` answers the bytes that the addresses hold, and answers only if all of them hold one. -/
theorem readBytes_eq_ok {m : List Host.Cell} {i n : Nat} {bs : List Byte} :
    readBytes m i n = .ok bs ↔
      bs.length = n ∧ ∀ k < n, i + k < carrySize ∧ Memory.get? m (i + k) = bs[k]? := by
  induction n generalizing i bs with
  | zero => cases bs <;> simp [readBytes]
  | succ n ih =>
    constructor
    · intro h
      simp only [readBytes] at h
      split at h
      · cases h
      · next b hb =>
        split at h
        · cases h
        · next rest hr =>
          cases h
          obtain ⟨hlt, hget⟩ := readByte_eq_ok.mp hb
          obtain ⟨hlen, hk⟩ := ih.mp hr
          refine ⟨by simp [hlen], fun k hkn => ?_⟩
          cases k with
          | zero => simpa using ⟨hlt, hget⟩
          | succ k =>
            have := hk k (by omega)
            rw [show i + 1 + k = i + (k + 1) by omega] at this
            simpa using this
    · rintro ⟨hlen, hk⟩
      cases bs with
      | nil => simp at hlen
      | cons b rest =>
        have h0 := hk 0 (by omega)
        have hb : readByte m i = .ok b := readByte_eq_ok.mpr (by simpa using h0)
        have hr : readBytes m (i + 1) n = .ok rest := by
          refine ih.mpr ⟨by simpa using hlen, fun k hkn => ?_⟩
          have := hk (k + 1) (by omega)
          rw [show i + (k + 1) = i + 1 + k by omega] at this
          simpa using this
        simp [readBytes, hb, hr]

/-- `readBytes` looks at nothing but the addresses it reads. -/
theorem readBytes_congr {m m' : List Host.Cell} {i n : Nat}
    (h : ∀ k < n, Memory.get? m (i + k) = Memory.get? m' (i + k)) : readBytes m i n = readBytes m' i n := by
  induction n generalizing i with
  | zero => rfl
  | succ n ih =>
    have hb : readByte m i = readByte m' i := by
      have := h 0 (by omega)
      simp only [Nat.add_zero] at this
      simp [readByte, this]
    have hr : readBytes m (i + 1) n = readBytes m' (i + 1) n := by
      refine ih fun k hk => ?_
      have := h (k + 1) (by omega)
      rwa [show i + (k + 1) = i + 1 + k by omega] at this
    simp [readBytes, hb, hr]

/-- Where every address holds a byte, `readBytes` answers. -/
theorem readBytes_ok_of_readable {m : List Host.Cell} {i n : Nat} (hn : i + n ≤ carrySize)
    (h : ∀ k < n, (Memory.get? m (i + k)).isSome) : ∃ bs, readBytes m i n = .ok bs := by
  induction n generalizing i with
  | zero => exact ⟨[], rfl⟩
  | succ n ih =>
    obtain ⟨b, hb⟩ := Option.isSome_iff_exists.mp (h 0 (by omega))
    have hb' : readByte m i = .ok b := readByte_eq_ok.mpr ⟨by omega, by simpa using hb⟩
    obtain ⟨bs, hbs⟩ := ih (i := i + 1) (by omega) fun k hk => by
      have := h (k + 1) (by omega)
      rwa [show i + (k + 1) = i + 1 + k by omega] at this
    exact ⟨b :: bs, by simp [readBytes, hb', hbs]⟩

/-- A run inside a run. -/
theorem readBytes_sub {m : List Host.Cell} {i n o k : Nat} {bs : List Byte} (h : readBytes m i n = .ok bs)
    (hk : o + k ≤ n) : readBytes m (i + o) k = .ok ((bs.drop o).take k) := by
  obtain ⟨hlen, hb⟩ := readBytes_eq_ok.mp h
  refine readBytes_eq_ok.mpr ⟨by simp; omega, fun j hj => ?_⟩
  have := hb (o + j) (by omega)
  rw [← Nat.add_assoc] at this
  simpa [List.getElem?_take, hj] using this

/-- What `writeBytes` does inside the buffer: the bytes of the run, every other address as before, the form kept. -/
theorem writeBytes_spec {m : List Host.Cell} {i : Nat} {bs : List Byte} (h : i + bs.length ≤ carrySize) :
    ∃ m', writeBytes m i bs = .ok m' ∧
      (∀ j, Memory.get? m' j = if i ≤ j ∧ j < i + bs.length then bs[j - i]? else Memory.get? m j) ∧
      (Memory.wf m = true → Memory.wf m' = true) := by
  induction bs generalizing m i with
  | nil =>
    refine ⟨m, rfl, fun j => ?_, id⟩
    simp
  | cons b bs ih =>
    simp only [List.length_cons] at h
    obtain ⟨m', hm', hget, hwf⟩ := ih (m := Memory.set m i b) (i := i + 1) (by omega)
    refine ⟨m', by simp [writeBytes, memWrite_ok b (show i < carrySize by omega), hm'], fun j => ?_,
      fun hm => hwf (wf_set b hm (by omega))⟩
    rw [hget j, get?_set]
    simp only [List.length_cons]
    rcases Nat.lt_trichotomy j i with hj | rfl | hj
    · have h1 : ¬ (i + 1 ≤ j ∧ j < i + 1 + bs.length) := by omega
      have h2 : ¬ (i ≤ j ∧ j < i + (bs.length + 1)) := by omega
      have h3 : ¬ i = j := by omega
      simp only [h1, h2, h3, if_false]
    · have h1 : ¬ (j + 1 ≤ j ∧ j < j + 1 + bs.length) := by omega
      have h2 : j ≤ j ∧ j < j + (bs.length + 1) := by omega
      simp only [h1, h2, if_false, and_self, if_true, Nat.sub_self, List.getElem?_cons_zero]
    · have h3 : ¬ i = j := by omega
      by_cases hlt : j < i + 1 + bs.length
      · have h1 : i + 1 ≤ j ∧ j < i + 1 + bs.length := by omega
        have h2 : i ≤ j ∧ j < i + (bs.length + 1) := by omega
        rw [if_pos h1, if_pos h2, show j - i = (j - (i + 1)) + 1 by omega, List.getElem?_cons_succ]
      · have h1 : ¬ (i + 1 ≤ j ∧ j < i + 1 + bs.length) := by omega
        have h2 : ¬ (i ≤ j ∧ j < i + (bs.length + 1)) := by omega
        simp only [h1, h2, h3, if_false]

/-! ### Words -/

theorem memRead_eq_ok {m : List Host.Cell} {i : Nat} {n : Width} {w : Word} :
    memRead m i n = .ok w ↔ ∃ bs, readBytes m i n.bytes = .ok bs ∧ w = leWord bs := by
  unfold memRead
  cases readBytes m i n.bytes <;> simp [eq_comm]

theorem memRead_congr {m m' : List Host.Cell} {i : Nat} {n : Width}
    (h : ∀ k < n.bytes, Memory.get? m (i + k) = Memory.get? m' (i + k)) : memRead m i n = memRead m' i n := by
  simp [memRead, readBytes_congr h]

/-- A little-endian number of `n` bytes is below `256^n`. -/
theorem leNat_lt (bs : List Byte) : leNat bs < 256 ^ bs.length := by
  induction bs with
  | nil => simp [leNat]
  | cons b bs ih =>
    have := b.isLt
    simp only [leNat, List.length_cons, Nat.pow_succ]
    omega

theorem leNat_append (bs cs : List Byte) : leNat (bs ++ cs) = leNat bs + 256 ^ bs.length * leNat cs := by
  induction bs with
  | nil => simp [leNat]
  | cons b bs ih => simp only [List.cons_append, leNat, ih, List.length_cons, Nat.pow_succ]; ring

/-- A word of at most eight bytes holds their little-endian number. -/
theorem leWord_toNat {bs : List Byte} (h : bs.length ≤ 8) : (leWord bs).toNat = leNat bs := by
  have h1 := leNat_lt bs
  have h2 : (256 : Nat) ^ bs.length ≤ 256 ^ 8 := Nat.pow_le_pow_right (by decide) h
  simp only [leWord, BitVec.toNat_ofNat]
  exact Nat.mod_eq_of_lt (lt_of_lt_of_le h1 (by simpa using h2))

/-- Lane `i` of a word assembled from at most eight bytes is byte `i`. -/
theorem lane_leWord {bs : List Byte} (h : bs.length ≤ 8) {i : Nat} (hi : i < bs.length) :
    lane (leWord bs) i = bs[i] := by
  have key : ∀ (bs : List Byte) (i : Nat) (hi : i < bs.length), leNat bs / 256 ^ i % 256 = (bs[i]).toNat := by
    intro bs
    induction bs with
    | nil => simp
    | cons b bs ih =>
      intro i hi
      have hb := b.isLt
      cases i with
      | zero => simp only [leNat, Nat.pow_zero, Nat.div_one, List.getElem_cons_zero]; omega
      | succ i =>
        have := ih i (by simpa using hi)
        simp only [leNat, Nat.pow_succ, List.getElem_cons_succ]
        rw [Nat.mul_comm (256 ^ i) 256, ← Nat.div_div_eq_div_mul]
        rw [show (b.toNat + 256 * leNat bs) / 256 = leNat bs by omega]
        exact this
  apply BitVec.eq_of_toNat_eq
  rw [← key bs i hi]
  simp only [lane, BitVec.extractLsb'_toNat, leWord_toNat h, Nat.shiftRight_eq_div_pow, Nat.pow_mul]

end Sys2Proof.Machine
end

