-- ==== Sys2Proof/Laws/Commands.lean ====
section
/-! SUPPORT. What each shared operation of the commands answers, said once: MIX32 from CARRY, one byte of PUSH, the loop of
PUSH, and the four meanings. -/

namespace Sys2Proof.Machine

/-! ### MIX32 from CARRY -/

/-- The words MIX32 reads from CARRY are those of the 32 bytes it holds. -/
theorem mixCarry_of_block {s : State} {blk : List Byte} (h : readBytes s.carry 0 32 = .ok blk) :
    mixCarry s = .ok { s with hash := mixBlock blk 0 s.hash } := by
  have hw : ∀ o, o + 8 ≤ 32 → memRead s.carry o .w8 = .ok (leAt blk o .w8) := fun o ho =>
    memRead_eq_ok.mpr ⟨_, by simpa [Width.bytes] using readBytes_sub h ho, rfl⟩
  simp [mixCarry, mixBlock, hw 0, hw 8, hw 16, hw 24]

/-- MIX32 of CARRY writes the state words only. -/
theorem mixCarry_frame {s t : State} (h : mixCarry s = .ok t) : t = { s with hash := t.hash } := by
  unfold mixCarry at h
  split at h <;> cases h
  rfl

/-- MIX32 of CARRY depends on no byte outside the 32 addresses. -/
theorem mixCarry_congr {m m' : List Host.Cell} (s : State)
    (h : ∀ i < 32, Memory.get? m i = Memory.get? m' i) :
    (mixCarry { s with carry := m }).map State.hash = (mixCarry { s with carry := m' }).map State.hash := by
  have hw : ∀ o, o + 8 ≤ 32 → memRead m o .w8 = memRead m' o .w8 := fun o ho =>
    memRead_congr fun k hk => h _ (by simp [Width.bytes] at hk; omega)
  unfold mixCarry
  simp only [hw 0 (by omega), hw 8 (by omega), hw 16 (by omega), hw 24 (by omega)]
  split <;> rfl

/-! ### PUSH -/

/-- FILL after one byte more: 2^64 is a multiple of 32, so no wrap of BYTES disturbs it. -/
theorem fill_succ (s : State) (m : List Host.Cell) :
    ({ s with carry := m, bytes := s.bytes + 1 } : State).fill = (s.fill + 1) % 32 := by
  have h := s.bytes.isLt
  simp only [State.fill, BitVec.toNat_add, show (1 : Word).toNat = 1 from rfl]
  omega

/-- One byte of PUSH, completely: it is stored at FILL, BYTES grows by one, and MIX32 runs if that completes the block. -/
theorem pushByte_eq (b : Byte) (s : State) :
    pushByte b s =
      if s.fill = 31 then mixCarry { s with carry := Memory.set s.carry 31 b, bytes := s.bytes + 1 }
      else .ok { s with carry := Memory.set s.carry s.fill b, bytes := s.bytes + 1 } := by
  have hf := fill_lt s
  rw [pushByte, memWrite_ok b hf]
  simp only [fill_succ]
  by_cases h : s.fill = 31
  · simp [h]
  · rw [if_neg (by omega), if_neg h]

/-- What one byte of PUSH leaves. -/
theorem pushByte_frame {b : Byte} {s t : State} (h : pushByte b s = .ok t) :
    t = { s with carry := Memory.set s.carry s.fill b, bytes := s.bytes + 1, hash := t.hash } ∧
      (s.fill ≠ 31 → t.hash = s.hash) := by
  rw [pushByte_eq] at h
  split at h
  · next hf =>
    have := mixCarry_frame h
    exact ⟨by rw [hf]; exact this, fun hne => absurd hf hne⟩
  · cases h
    exact ⟨rfl, fun _ => rfl⟩

/-- The loop of PUSH writes the state words, CARRY and BYTES only. -/
theorem pushBytes_frame {d : List Byte} {s t : State} (h : pushBytes d s = .ok t) :
    t = { s with hash := t.hash, carry := t.carry, bytes := s.bytes + BitVec.ofNat 64 d.length } := by
  induction d generalizing s with
  | nil => cases h; simp
  | cons b d ih =>
    simp only [pushBytes] at h
    split at h
    · cases h
    · next s' hs' =>
      have h1 := (pushByte_frame hs').1
      have h2 := ih h
      rw [h1] at h2
      rw [h2]
      congr 1
      simp only [List.length_cons]
      apply BitVec.eq_of_toNat_eq
      simp only [BitVec.toNat_add, BitVec.toNat_ofNat, show (1 : Word).toNat = 1 from rfl]
      omega

theorem pushBytes_append (d e : List Byte) (s : State) :
    pushBytes (d ++ e) s =
      match pushBytes d s with
      | .error f => .error f
      | .ok t => pushBytes e t := by
  induction d generalizing s with
  | nil => rfl
  | cons b d ih =>
    simp only [List.cons_append, pushBytes]
    cases pushByte b s with
    | error f => rfl
    | ok s' => exact ih s'

/-! ### The meanings -/

/-- What PUSH can answer. -/
theorem execPush_cases (d : List Byte) (s : State) :
    (8 < d.length ∧ execPush d s = .next (reject .illfmt s)) ∨
    (d.length ≤ 8 ∧ s.phase ≠ .active ∧ execPush d s = .next (reject .seq s)) ∨
    (d.length ≤ 8 ∧ s.phase = .active ∧ 2 ^ 64 ≤ s.bytes.toNat + d.length ∧
      execPush d s = .next (reject .lenovf s)) ∨
    (d.length ≤ 8 ∧ s.phase = .active ∧ s.bytes.toNat + d.length < 2 ^ 64 ∧
      execPush d s = settle (pushBytes d s)) := by
  unfold execPush
  by_cases h1 : maxBeat < d.length
  · exact .inl ⟨h1, by rw [if_pos h1]⟩
  · have h1' : d.length ≤ 8 := Nat.le_of_not_lt h1
    rw [if_neg h1]
    by_cases h2 : s.phase = .active
    · rw [if_neg (not_not.mpr h2)]
      by_cases h3 : 2 ^ 64 ≤ s.bytes.toNat + d.length
      · exact .inr (.inr (.inl ⟨h1', h2, h3, by rw [if_pos (by simpa [overflows] using h3)]⟩))
      · exact .inr (.inr (.inr ⟨h1', h2, by omega, by rw [if_neg (by simpa [overflows] using h3)]⟩))
    · exact .inr (.inl ⟨h1', h2, by rw [if_pos h2]⟩)

/-- What FINAL can answer. -/
theorem execFinal_cases (s : State) :
    (s.phase ≠ .active ∧ execFinal s = .next (reject .seq s)) ∨
    (s.phase = .active ∧ ∃ f, readBytes s.carry 0 s.fill = .error f ∧ execFinal s = .fault f) ∨
    (s.phase = .active ∧ ∃ t, readBytes s.carry 0 s.fill = .ok t ∧
      execFinal s = .next { s with hash := finalHash s.bulk t s.hash, bytes := 0, phase := .finalized }) := by
  unfold execFinal
  by_cases h : s.phase = .active
  · rw [if_neg (not_not.mpr h)]
    cases hr : readBytes s.carry 0 s.fill with
    | error f => exact .inr (.inl ⟨h, f, rfl, rfl⟩)
    | ok t => exact .inr (.inr ⟨h, t, rfl, rfl⟩)
  · exact .inl ⟨h, by rw [if_pos h]⟩

theorem settle_eq_next {r : Except Fault State} {t : State} : settle r = .next t ↔ r = .ok t := by
  cases r <;> simp [settle]

/-- No command of the table is refused. -/
theorem exec_ne_refused (i : Instr) (s : State) (r : Refusal) : exec i s ≠ .refused r := by
  cases i with
  | nop => simp [exec, execNop]
  | init seed => simp [exec, execInit]
  | push d =>
    rcases execPush_cases d s with ⟨-, h⟩ | ⟨-, -, h⟩ | ⟨-, -, -, h⟩ | ⟨-, -, -, h⟩ <;> simp only [exec, h]
    any_goals simp
    cases pushBytes d s <;> simp [settle]
  | final =>
    rcases execFinal_cases s with ⟨-, h⟩ | ⟨-, f, -, h⟩ | ⟨-, t, -, h⟩ <;> simp [exec, h]

end Sys2Proof.Machine
end

