-- ==== Sys2Proof/Laws/Decode.lean ====
section
/-! SUPPORT. The fields of an assembled command word, and what the decoder answers by them. -/

namespace Sys2Proof

theorem opField_mkWord (op n : BitVec 4) (p : Word) : opField (mkWord op n p) = op := by
  ext i hi
  simp only [opField, mkWord, BitVec.getElem_extractLsb', BitVec.getLsbD_append]
  have h1 : ¬ 68 + i < 64 := by omega
  have h2 : ¬ 68 + i - 64 < 4 := by omega
  simp only [h1, h2, if_false]
  rw [show 68 + i - 64 - 4 = i by omega, BitVec.getLsbD_eq_getElem hi]

theorem nField_mkWord (op n : BitVec 4) (p : Word) : nField (mkWord op n p) = n := by
  ext i hi
  simp only [nField, mkWord, BitVec.getElem_extractLsb', BitVec.getLsbD_append]
  have h1 : ¬ 64 + i < 64 := by omega
  have h2 : 64 + i - 64 < 4 := by omega
  simp only [h1, h2, if_false, if_true]
  rw [show 64 + i - 64 = i by omega, BitVec.getLsbD_eq_getElem hi]

theorem payloadField_mkWord (op n : BitVec 4) (p : Word) : payloadField (mkWord op n p) = p := by
  ext i hi
  simp only [payloadField, mkWord, BitVec.getElem_extractLsb', BitVec.getLsbD_append]
  have h1 : 0 + i < 64 := by omega
  simp only [h1, if_true]
  rw [Nat.zero_add, BitVec.getLsbD_eq_getElem hi]

/-- A word is its three fields. -/
theorem mkWord_fields (w : CmdWord) : mkWord (opField w) (nField w) (payloadField w) = w := by
  ext i hi
  simp only [mkWord, ← BitVec.getLsbD_eq_getElem, BitVec.getLsbD_append, opField, nField, payloadField,
    BitVec.getLsbD_extractLsb']
  by_cases h1 : i < 64
  · simp [h1]
  · by_cases h2 : i - 64 < 4
    · simp [h1, h2, show 64 + (i - 64) = i by omega]
    · simp [h1, h2, show i - 64 - 4 < 4 by omega, show 68 + (i - 64 - 4) = i by omega]

end Sys2Proof
end

