-- ==== Sys2Proof/Laws/Mixing.lean ====
section
/-! SUPPORT. The small lemmas of the mixing primitives: the words each leaves alone (a proof that unfolds a primitive to see
this makes the kernel compare the words it does write), and what the reads of a byte list depend on. -/

namespace Sys2Proof.Machine

/-! ### The words a primitive does not touch (R99, R105) -/

@[simp] theorem t16_C (t : List Byte) (o : Nat) (h : HashState) : (t16 t o h).C = h.C := by simp only [t16]
@[simp] theorem t16_D (t : List Byte) (o : Nat) (h : HashState) : (t16 t o h).D = h.D := by simp only [t16]
@[simp] theorem t8_B (t : List Byte) (o : Nat) (h : HashState) : (t8 t o h).B = h.B := by simp only [t8]
@[simp] theorem t8_C (t : List Byte) (o : Nat) (h : HashState) : (t8 t o h).C = h.C := by simp only [t8]
@[simp] theorem t8_D (t : List Byte) (o : Nat) (h : HashState) : (t8 t o h).D = h.D := by simp only [t8]
@[simp] theorem t4_A (t : List Byte) (o : Nat) (h : HashState) : (t4 t o h).A = h.A := by simp only [t4]
@[simp] theorem t4_C (t : List Byte) (o : Nat) (h : HashState) : (t4 t o h).C = h.C := by simp only [t4]
@[simp] theorem t4_D (t : List Byte) (o : Nat) (h : HashState) : (t4 t o h).D = h.D := by simp only [t4]
@[simp] theorem t2_B (t : List Byte) (o : Nat) (h : HashState) : (t2 t o h).B = h.B := by simp only [t2]
@[simp] theorem t2_C (t : List Byte) (o : Nat) (h : HashState) : (t2 t o h).C = h.C := by simp only [t2]
@[simp] theorem t2_D (t : List Byte) (o : Nat) (h : HashState) : (t2 t o h).D = h.D := by simp only [t2]
@[simp] theorem t1_A (t : List Byte) (o : Nat) (h : HashState) : (t1 t o h).A = h.A := by simp only [t1]
@[simp] theorem t1_C (t : List Byte) (o : Nat) (h : HashState) : (t1 t o h).C = h.C := by simp only [t1]
@[simp] theorem t1_D (t : List Byte) (o : Nat) (h : HashState) : (t1 t o h).D = h.D := by simp only [t1]
@[simp] theorem aval_C (h : HashState) : (aval h).C = h.C := by simp only [aval]
@[simp] theorem aval_D (h : HashState) : (aval h).D = h.D := by simp only [aval]

/-- The line of TAIL for the piece of `2^k` bytes, begun at the offset of the higher set bits of `r`: the piece runs exactly
if bit `k` of `r` is 1, and the offset takes in that bit. -/
theorem tailLine_bit (r k : Nat) (piece : Nat → HashState → HashState) (h : HashState) :
    tailLine r (2 ^ k) piece (r / 2 ^ (k + 1) * 2 ^ (k + 1), h) =
      (r / 2 ^ k * 2 ^ k, if r.testBit k then piece (r / 2 ^ (k + 1) * 2 ^ (k + 1)) h else h) := by
  have hhalf : r / 2 ^ (k + 1) = r / 2 ^ k / 2 := by rw [Nat.pow_succ, Nat.div_div_eq_div_mul]
  have hr := Nat.div_add_mod r (2 ^ k)
  have hlt : r % 2 ^ k < 2 ^ k := Nat.mod_lt _ (by positivity)
  have hbit : r.testBit k = decide (r / 2 ^ k % 2 = 1) := Nat.testBit_eq_decide_div_mod_eq
  generalize r / 2 ^ k = q at *
  have hq := Nat.div_add_mod q 2
  have hoff : q / 2 * 2 ^ (k + 1) = 2 ^ k * (2 * (q / 2)) := by rw [Nat.pow_succ]; ring
  have hcut : q * 2 ^ k = 2 ^ k * (2 * (q / 2)) + 2 ^ k * (q % 2) := by
    conv_lhs => rw [← hq]
    ring
  have hcomm : 2 ^ k * q = q * 2 ^ k := Nat.mul_comm _ _
  simp only [tailLine, hhalf, hoff, hbit]
  rcases Nat.mod_two_eq_zero_or_one q with hm | hm
  · rw [hm] at hcut
    rw [if_neg (by omega)]
    simp [hm]
    omega
  · rw [hm] at hcut
    rw [if_pos (by omega)]
    simp [hm]
    omega

/-! ### Reads of a byte list -/

/-- A read inside the front of a list does not see what follows. -/
theorem leAt_append {bs : List Byte} (cs : List Byte) {i : Nat} {n : Width} (h : i + n.bytes ≤ bs.length) :
    leAt (bs ++ cs) i n = leAt bs i n := by
  unfold leAt
  rw [List.drop_append_of_le_length (by omega), List.take_append_of_le_length (by simp; omega)]

/-- A read of a list from `k` on. -/
theorem leAt_drop (bs : List Byte) (k i : Nat) (n : Width) : leAt (bs.drop k) i n = leAt bs (k + i) n := by
  simp [leAt, List.drop_drop]

theorem mixBlock_append {bs : List Byte} (cs : List Byte) {o : Nat} (ho : o + 32 ≤ bs.length) (h : HashState) :
    mixBlock (bs ++ cs) o h = mixBlock bs o h := by
  unfold mixBlock
  rw [leAt_append cs (by simp [Width.bytes]; omega), leAt_append cs (by simp [Width.bytes]; omega),
    leAt_append cs (by simp [Width.bytes]; omega), leAt_append cs (by simp [Width.bytes]; omega)]

theorem mixBlock_drop (bs : List Byte) (k o : Nat) (h : HashState) :
    mixBlock (bs.drop k) o h = mixBlock bs (k + o) h := by
  simp only [mixBlock, leAt_drop, Nat.add_assoc]

/-- The blocks of the front of a list do not see what follows. -/
theorem mixBlocks_append {bs : List Byte} (cs : List Byte) {k : Nat} (hk : 32 * k ≤ bs.length) (h : HashState) :
    mixBlocks (bs ++ cs) k h = mixBlocks bs k h := by
  induction k with
  | zero => rfl
  | succ k ih => simp only [mixBlocks, ih (by omega), mixBlock_append cs (show 32 * k + 32 ≤ bs.length by omega)]

/-- The first `j` blocks, then `k` blocks more. -/
theorem mixBlocks_add (bs : List Byte) (j k : Nat) (h : HashState) :
    mixBlocks bs (j + k) h = mixBlocks (bs.drop (32 * j)) k (mixBlocks bs j h) := by
  induction k with
  | zero => rfl
  | succ k ih =>
    rw [show j + (k + 1) = (j + k) + 1 by omega]
    simp only [mixBlocks, ih, mixBlock_drop, Nat.mul_add]

end Sys2Proof.Machine
end

