-- ==== Sys2Proof/Laws/PerInstr.lean ====
section
/-! SUPPORT. The family made per command: the word of a well-formed command selects its own row of the opcode table and no
other (R76). -/

namespace Sys2Proof.Laws.SelectsOwnRow

open Sys2Proof

/-- The encoded word of a well-formed command selects exactly the row of that command. -/
def Statement (i : Instr) : Prop :=
  WellFormed i = true → (opcodeRows.filter (·.selects (encode i))).map OpcodeRow.mnemonic = [rowName i]

theorem nop : Statement .nop := fun _ => by decide

theorem final : Statement .final := fun _ => by decide

/-- The fields of a masked word, each masked by the field of the mask. -/
theorem and_mkWord (op n op' n' : BitVec 4) (p p' : Word) :
    mkWord op n p &&& mkWord op' n' p' = mkWord (op &&& op') (n &&& n') (p &&& p') := by
  ext i hi
  simp only [mkWord, ← BitVec.getLsbD_eq_getElem, BitVec.getLsbD_and, BitVec.getLsbD_append]
  split
  · rfl
  · split <;> rfl

theorem mkWord_inj {op n op' n' : BitVec 4} {p p' : Word} :
    mkWord op n p = mkWord op' n' p' ↔ op = op' ∧ n = n' ∧ p = p' := by
  constructor
  · intro h
    exact ⟨by rw [← opField_mkWord op n p, h, opField_mkWord], by rw [← nField_mkWord op n p, h, nField_mkWord],
      by rw [← payloadField_mkWord op n p, h, payloadField_mkWord]⟩
  · rintro ⟨rfl, rfl, rfl⟩
    rfl

/-- The four rows by the fields of a word. -/
theorem rows_by_fields : opcodeRows =
    [⟨"NOP", mkWord 0 0 0, mkWord 15 15 0xFFFFFFFFFFFFFFFF⟩, ⟨"INIT", mkWord 1 0 0, mkWord 15 15 0⟩,
     ⟨"PUSH", mkWord 2 0 0, mkWord 15 0 0⟩, ⟨"FINAL", mkWord 3 0 0, mkWord 15 15 0xFFFFFFFFFFFFFFFF⟩] := by decide

theorem init (seed : Word) : Statement (.init seed) := fun _ => by
  have h1 : (15 : BitVec 4) = BitVec.allOnes 4 := rfl
  simp [rows_by_fields, OpcodeRow.selects, encode, and_mkWord, mkWord_inj, rowName, h1, nField_mkWord]

theorem push (d : List Byte) : Statement (.push d) := fun h => by
  have hd : d.length ≤ 8 := by simpa [WellFormed] using h
  have h1 : (15 : BitVec 4) = BitVec.allOnes 4 := rfl
  have h2 : d.length % 16 ≤ 8 := by omega
  simp [rows_by_fields, OpcodeRow.selects, encode, and_mkWord, mkWord_inj, rowName, h1, nField_mkWord, h2]

end Sys2Proof.Laws.SelectsOwnRow
end

