-- ==== Sys2Proof/Laws/Step.lean ====
section
/-! SUPPORT. What one step can do, said once: nothing to sample, a reset, a command taken, or an idle sampling. -/

namespace Sys2Proof.Machine

theorem step_exhausted {s : State} (h : s.host = []) : step s = .next s := by simp [step, sample, h]

theorem step_reset {s : State} {d : HostDrive} {rest : List HostDrive} (h : s.host = d :: rest) (hr : d.rst = true) :
    step s = .next (resetEngine (dropDrive s)) := by simp [step, sample, h, hr]

theorem step_idle {s : State} {d : HostDrive} {rest : List HostDrive} (h : s.host = d :: rest) (hr : d.rst = false)
    (hv : d.cmdValid = false) : step s = .next (dropDrive s) := by simp [step, sample, h, hr, hv, accepts]

theorem step_presents {s : State} {w : CmdWord} (h : Presents s w) : step s = runWord w (takeCommand s) := by
  obtain ⟨d, rest, hs, hr, hv, rfl⟩ := h
  simp [step, sample, hs, hr, hv, accepts, cmdReady]

/-- Every step is one of these. -/
theorem step_cases (s : State) :
    (s.host = [] ∧ step s = .next s) ∨
    ((∃ d rest, s.host = d :: rest ∧ d.rst = true) ∧ step s = .next (resetEngine (dropDrive s))) ∨
    ((∃ d rest, s.host = d :: rest ∧ d.rst = false ∧ d.cmdValid = false) ∧ step s = .next (dropDrive s)) ∨
    (∃ w, Presents s w ∧ step s = runWord w (takeCommand s)) := by
  cases hs : s.host with
  | nil => exact .inl ⟨rfl, step_exhausted hs⟩
  | cons d rest =>
    cases hr : d.rst with
    | true => exact .inr (.inl ⟨⟨d, rest, rfl, hr⟩, step_reset hs hr⟩)
    | false =>
      cases hv : d.cmdValid with
      | false => exact .inr (.inr (.inl ⟨⟨d, rest, rfl, hr, hv⟩, step_idle hs hr hv⟩))
      | true =>
        have hp : Presents s d.cmd := ⟨d, rest, hs, hr, hv, rfl⟩
        exact .inr (.inr (.inr ⟨d.cmd, hp, step_presents hp⟩))

/-- An accepted word is a command or illegal. -/
theorem runWord_cases (w : CmdWord) (s : State) :
    (∃ i, decode w = .ok i ∧ runWord w s = exec i s) ∨
    (∃ e, decode w = .error e ∧ runWord w s = .next (reject (illegalCause e) s)) := by
  unfold runWord
  cases decode w with
  | ok i => exact .inl ⟨i, rfl, rfl⟩
  | error e => exact .inr ⟨e, rfl, rfl⟩

/-- At most one word is presented. -/
theorem presents_unique {s : State} {w w' : CmdWord} (h : Presents s w) (h' : Presents s w') : w = w' := by
  obtain ⟨d, rest, hs, -, -, rfl⟩ := h
  obtain ⟨d', rest', hs', -, -, rfl⟩ := h'
  rw [hs] at hs'
  cases hs'
  rfl

/-- A word is accepted exactly when each check passes (R161, R168). -/
theorem accepted_iff {w : CmdWord} {s : State} :
    Accepted w s ↔ (opField w).toNat < 4 ∧ ¬ IllegalFormat w ∧
      ((opField w = 2 ∨ opField w = 3) → s.phase = .active) ∧
      (opField w = 2 → s.bytes.toNat + (nField w).toNat < 2 ^ 64) := by
  constructor
  · intro h
    have hf : ¬ IllegalFormat w := fun hw => h _ (.illfmt hw)
    have hp : (opField w = 2 ∨ opField w = 3) → s.phase = .active := fun ho =>
      Classical.byContradiction fun hne => h _ (.seq hf ho hne)
    refine ⟨?_, hf, hp, fun ho => ?_⟩
    · exact Nat.lt_of_not_le fun h4 => h _ (.illop h4)
    · exact Nat.lt_of_not_le fun hn => h _ (.lenovf hf ho (hp (.inl ho)) hn)
  · rintro ⟨h4, hf, hp, hn⟩ c hc
    cases hc with
    | illop h => omega
    | illfmt h => exact hf h
    | seq _ ho hne => exact hne (hp ho)
    | lenovf _ ho _ h => exact absurd (hn ho) (by omega)

end Sys2Proof.Machine
end

