-- ==== Sys2Proof/Machine/AsmText.lean ====
section
/-! DEFINITION. The reading of assembler text (spec/30_encoding.md R79, R80): a line of characters to the form it writes, and
a text to its command words. What R79 leaves open about the text (blanks, the base of a byte value, `#` inside quotes) is
in notes/assumptions/7.md. -/

namespace Sys2Proof.Machine

/-! ### The pieces of a line -/

/-- A piece of a line: a run of characters that is no blank and no mark, a quoted text, or a mark. -/
inductive AsmToken where
  | run (chars : List Char)
  | quoted (chars : List Char)
  | comma
  | opens
  | closes
deriving DecidableEq, Repr

/-- Where the reading of a line stands: in the characters of a run, or inside quotes; the latest character first. -/
inductive AsmReading where
  | inRun (chars : List Char)
  | inQuotes (chars : List Char)
deriving DecidableEq, Repr

/-- The pieces with a run put in front of them, if there is one. -/
def endRun (chars : List Char) (ts : List AsmToken) : List AsmToken :=
  if chars.isEmpty then ts else .run chars.reverse :: ts

/-- The pieces of a line; `#` outside quotes starts a comment (R79). Quotes that do not close are no line. -/
def asmTokens : List Char → AsmReading → Option (List AsmToken)
  | [], .inRun r => some (endRun r [])
  | [], .inQuotes _ => none
  | c :: cs, .inQuotes q =>
    if c = '"' then (asmTokens cs (.inRun [])).map (.quoted q.reverse :: ·) else asmTokens cs (.inQuotes (c :: q))
  | c :: cs, .inRun r =>
    if c = '#' then some (endRun r [])
    else if c = ' ' ∨ c = '\t' then (asmTokens cs (.inRun [])).map (endRun r)
    else if c = ',' then (asmTokens cs (.inRun [])).map fun ts => endRun r (.comma :: ts)
    else if c = '[' then (asmTokens cs (.inRun [])).map fun ts => endRun r (.opens :: ts)
    else if c = ']' then (asmTokens cs (.inRun [])).map fun ts => endRun r (.closes :: ts)
    else if c = '"' then (asmTokens cs (.inQuotes [])).map (endRun r)
    else asmTokens cs (.inRun (c :: r))

/-! ### Numbers -/

/-- The value of a digit, `0` to `9`, `A` to `F` or `a` to `f`. -/
def digitValue (c : Char) : Option Nat :=
  let n := c.toNat
  if 48 ≤ n ∧ n ≤ 57 then some (n - 48)
  else if 65 ≤ n ∧ n ≤ 70 then some (n - 55)
  else if 97 ≤ n ∧ n ≤ 102 then some (n - 87)
  else none

/-- The number a run of digits writes in a base, after the digits that gave `acc`. -/
def asmDigitsFrom (base acc : Nat) : List Char → Option Nat
  | [] => some acc
  | c :: cs =>
    match digitValue c with
    | some v => if v < base then asmDigitsFrom base (base * acc + v) cs else none
    | none => none

/-- A number of at least one digit. -/
def asmDigits (base : Nat) (cs : List Char) : Option Nat := if cs.isEmpty then none else asmDigitsFrom base 0 cs

/-- A number: `0x` and hexadecimal digits, or else digits in base `base`. -/
def asmNumber (base : Nat) : List Char → Option Nat
  | '0' :: 'x' :: cs => asmDigits 16 cs
  | cs => asmDigits base cs

/-- The byte values up to the closing bracket that ends the line. A byte value is hexadecimal, with or without `0x`. -/
def asmByteValues : List AsmToken → Option (List Nat)
  | [.closes] => some []
  | .run cs :: ts =>
    match asmNumber 16 cs with
    | some v => (asmByteValues ts).map (v :: ·)
    | none => none
  | _ => none

/-- The `<bytes>` of a pseudo-instruction: characters in quotes, or byte values in brackets (R80). -/
def asmBytes : List AsmToken → Option (List Byte)
  | [.quoted cs] => cs.mapM asciiByte
  | .opens :: ts => (asmByteValues ts).bind fun vs => vs.mapM asByte
  | _ => none

/-! ### Lines -/

/-- The operands of `PUSH` (R79). -/
def asmPush : List AsmToken → Option AsmLine
  | [.run n, .comma, .run p] => (asmNumber 10 n).bind fun n => (asmNumber 10 p).map fun p => .push n p
  | [.quoted cs] => some (.pushChars cs)
  | .opens :: ts => (asmByteValues ts).map .pushBytes
  | _ => none

/-- The operands of `INIT` (R79). -/
def asmInit : List AsmToken → Option AsmLine
  | [.run seed] => (asmNumber 10 seed).map .init
  | _ => none

/-- The operands of `HASH` (R80). -/
def asmHash : List AsmToken → Option AsmLine
  | .run seed :: .comma :: ts =>
    (asmNumber 10 seed).bind fun seed =>
      if seed < 2 ^ 64 then (asmBytes ts).map fun bs => .hash (BitVec.ofNat 64 seed) bs else none
  | _ => none

/-- The form a line's pieces write, by the mnemonic they begin with (R79, R80). -/
def asmForm (mnemonic : List Char) (ts : List AsmToken) : Option AsmLine :=
  if mnemonic = ['N', 'O', 'P'] then (if ts.isEmpty then some .nop else none)
  else if mnemonic = ['I', 'N', 'I', 'T'] then asmInit ts
  else if mnemonic = ['P', 'U', 'S', 'H'] then asmPush ts
  else if mnemonic = ['F', 'I', 'N', 'A', 'L'] then (if ts.isEmpty then some .final else none)
  else if mnemonic = ['U', 'P', 'D', 'A', 'T', 'E'] then (asmBytes ts).map .update
  else if mnemonic = ['H', 'A', 'S', 'H'] then asmHash ts
  else none

/-- The command words a line of text writes: none of them for a line that is blank or all comment; no answer for a line that
is not of R79's or R80's form. -/
def assembleLine (line : List Char) : Option (List CmdWord) :=
  match asmTokens line (.inRun []) with
  | some [] => some []
  | some (.run mnemonic :: ts) => (asmForm mnemonic ts).bind assembleWords
  | _ => none

/-- The lines of a text; the line read so far has its latest character first. -/
def asmLines : List Char → List Char → List (List Char)
  | [], line => [line.reverse]
  | c :: cs, line => if c = '\n' then line.reverse :: asmLines cs [] else asmLines cs (c :: line)

/-- The command words of a text, one command or pseudo-instruction a line (R79). -/
def assembleText (text : List Char) : Option (List CmdWord) :=
  ((asmLines text []).mapM assembleLine).map List.flatten

end Sys2Proof.Machine
end

