-- ==== Sys2Proof/Tests/Slice0.lean ====
section
/-! SUPPORT. Small tests: command words written out from the fields of R70 to R75, the values of spec/95_test_vectors.md, one
step each on small states, and for every statement with hypotheses a witness that meets them. -/

namespace Sys2Proof.Tests

open Sys2Proof Sys2Proof.Machine

/-! ### Small states -/

/-- The state words of seed 0 (95_test_vectors.md 2.3, row 1). -/
def seed0 : HashState := ⟨0xDAF812FADE1589FB, 0x40F9D9A67898EB79, 0x60E25D3BAF065EDB, 0xE72A3B80CA927BD9⟩

/-- CARRY with byte `i` at address `i`, for `i < n`. -/
def counting (n : Nat) : List Host.Cell := (List.range n).map fun i => (i, BitVec.ofNat 8 i)

/-- The bytes `counting` holds. -/
def count (i : Nat) : Byte := BitVec.ofNat 8 i

/-- A state of seed 0 with `n` bytes taken and `count` in CARRY, no command rejected yet and none waiting. -/
def small (phase : Phase) (n : Nat) : State :=
  { hash := seed0, carry := counting (n % 32), bytes := BitVec.ofNat 64 n, phase := phase, err := false,
    errCode := .none, host := [], pc := 0, resets := 0 }

/-- The same with one word presented. -/
def given (s : State) (w : CmdWord) : State := { s with host := [present w] }

/-- ASCII "0123456789" repeated and cut to `n` characters: `S(n)`. -/
def digits (n : Nat) : List Byte := (List.range n).map fun i => BitVec.ofNat 8 (0x30 + i % 10)

/-- The next state of an outcome. -/
def after : Host.Outcome State Fault Refusal → Option State
  | .next s => some s
  | .fault _ => none
  | .refused _ => none

theorem given_presents (s : State) (w : CmdWord) : Presents (given s w) w := ⟨_, _, rfl, rfl, rfl, rfl⟩

/-! ### Well-formedness -/

theorem test_wf_push_nine_bytes_refused : WellFormed (.push [1, 2, 3, 4, 5, 6, 7, 8, 9]) = false := by decide
theorem test_wf_legal : WellFormed .nop = true ∧ WellFormed (.init 0xFFFFFFFFFFFFFFFF) = true ∧
    WellFormed (.push []) = true ∧ WellFormed (.push [1, 2, 3, 4, 5, 6, 7, 8]) = true ∧
    WellFormed .final = true := by decide

/-! ### Decoding: words written as op, n, payload (R70 to R75; 95_test_vectors.md 4.1) -/

theorem test_decode_nop : decode ((0b0000 : BitVec 4) ++ (0b0000 : BitVec 4) ++ (0 : BitVec 64)) = .ok .nop := by rfl
theorem test_decode_init :
    decode ((0b0001 : BitVec 4) ++ (0b0000 : BitVec 4) ++ (0x0123456789ABCDEF : BitVec 64)) =
      .ok (.init 0x0123456789ABCDEF) := by rfl
theorem test_decode_push :
    decode ((0b0010 : BitVec 4) ++ (0b0011 : BitVec 4) ++ (0xDEADBEEF00636261 : BitVec 64)) =
      .ok (.push [0x61, 0x62, 0x63]) := by rfl
theorem test_decode_push_full :
    decode 0x283736353433323130 = .ok (.push [0x30, 0x31, 0x32, 0x33, 0x34, 0x35, 0x36, 0x37]) := by rfl
theorem test_decode_push_none : decode 0x20FFFFFFFFFFFFFFFF = .ok (.push []) := by rfl
theorem test_decode_final : decode ((0b0011 : BitVec 4) ++ (0b0000 : BitVec 4) ++ (0 : BitVec 64)) = .ok .final := by rfl
theorem test_decode_illfmt :
    decode 0x000000000000000001 = .error .illfmt ∧ decode 0x010000000000000000 = .error .illfmt ∧
    decode 0x1FFFFFFFFFFFFFFFFF = .error .illfmt ∧ decode 0x110000000000000000 = .error .illfmt ∧
    decode 0x290000000000000000 = .error .illfmt ∧ decode 0x2F0000000000000000 = .error .illfmt ∧
    decode 0x300000000000000005 = .error .illfmt := ⟨rfl, rfl, rfl, rfl, rfl, rfl, rfl⟩
theorem test_decode_illop :
    decode 0x400000000000000000 = .error .illop ∧ decode 0x700000000000000000 = .error .illop ∧
    decode 0xFFFFFFFFFFFFFFFFFF = .error .illop := ⟨rfl, rfl, rfl⟩
theorem test_decode_table_word :
    decodeTableWord 72 0x300000000000000000 = some .final ∧ decodeTableWord 72 0x230000000000636261 =
      some (.push [0x61, 0x62, 0x63]) ∧ decodeTableWord 72 0x400000000000000000 = none := by decide

/-! ### Encoding and the assembler: the words of 95_test_vectors.md section 5 -/

theorem test_encode :
    encode .nop = 0x000000000000000000 ∧ encode (.init 5) = 0x100000000000000005 ∧
    encode (.push [0x61, 0x62, 0x63]) = 0x230000000000636261 ∧ encode .final = 0x300000000000000000 := by decide
theorem test_assemble :
    assembleWords (.pushChars ['a', 'b', 'c']) = some [0x230000000000636261] ∧
    assembleWords (.pushBytes [0x19, 0x1A, 0x1B, 0x1C, 0x1D]) = some [0x250000001D1C1B1A19] ∧
    assembleWords (.push 0 0) = some [0x200000000000000000] ∧ assembleWords (.push 9 0) = none ∧
    assembleWords (.init 0x0123456789ABCDEF) = some [0x100123456789ABCDEF] := by decide

/-- P2 and a line of P5 as text. -/
theorem test_assembleText :
    assembleText "INIT 0\nPUSH \"abc\"  # three bytes\nPUSH [25 0A]\nPUSH 0, 0\n\nFINAL".toList =
      some [0x100000000000000000, 0x230000000000636261, 0x220000000000000A25, 0x200000000000000000,
        0x300000000000000000] ∧
    assembleText "INIT 0x10000000000000000".toList = none ∧ assembleText "PUSH 9, 0".toList = none ∧
    assembleText "HASH 0x1, [FF]".toList =
      some [0x100000000000000001, 0x2100000000000000FF, 0x300000000000000000] := by decide

/-! ### The primitives (95_test_vectors.md section 2) -/

theorem test_rotr :
    rotr 0x0123456789ABCDEF 29 = 0x4D5E6F78091A2B3C ∧ rotr 1 63 = 2 ∧ rotr 0x8000000000000000 13 = 0x0004000000000000 ∧
    rotr 0x0123456789ABCDEF 58 = 0x48D159E26AF37BC0 := by decide
theorem test_arith : 0 - K0 = 0xFFFFFFFF37C56E1F ∧ K1 * K2 = 0x40F9D9A67898EB79 := by decide
theorem test_seedInit : seedInit 0 = seed0 ∧ seedInit 0xFFFFFFFFFFFFFFFF =
    ⟨0xDAF812FAAEBD1956, 0x40F9D9A5FCBA2B3E, 0x60E25D3B33279EA0, 0xE72A3B809B3A0B34⟩ := by decide
theorem test_mix32 : mixBlock (digits 32) 0 seed0 =
    ⟨0xE05A069B0B98141A, 0x93906E898CE7C54A, 0xBA16C90838D41068, 0x00DCA1771AD4DFA1⟩ := by decide
theorem test_bfin :
    bfin ⟨0xE05A069B0B98141A, 0x93906E898CE7C54A, 0xBA16C90838D41068, 0x00DCA1771AD4DFA1⟩ =
      ⟨0xFE650F9EFE37DECC, 0x8A1FC7C31A266852, 0xFE08EB1DF1077970, 0x808C98402396ECD0⟩ := by decide
theorem test_tail_pieces :
    (t16 (digits 16) 0 seed0).A = 0x2F7ED43F084FB68F ∧ (t16 (digits 16) 0 seed0).B = 0xC028DD68D86A16BC ∧
    (t8 (digits 8) 0 seed0).A = 0x546550C556426D9F ∧ (t4 (digits 4) 0 seed0).B = 0x644C101E29BD9BDF ∧
    (t2 (digits 2) 0 seed0).A = 0x0A9A13C9C8615D3F ∧ (t1 (digits 1) 0 seed0).B = 0xC9B755E2AF69A1BB := by decide
theorem test_tail_zero_extends :
    (t4 [0xFF, 0xFF, 0xFF, 0xFF] 0 seed0).B = 0xAAFC9F4D6E053D79 ∧ (t2 [0xFF, 0xFF] 0 seed0).A = 0x69400064C0F2F85B ∧
    (t1 [0xFF] 0 seed0).B = 0xE1EC448B0F9B8965 := by decide
theorem test_aval : (aval seed0).A = 0x0005F3CA3D41D1CB ∧ (aval seed0).B = 0x4606B14684C65FB6 := by decide

/-! ### The hash (95_test_vectors.md sections 1 and 3) -/

/-- V1: TMH's own vector, seed 0. -/
theorem test_mh128_V1 : mh128 0 (digits 63) =
    [0xC7, 0x7C, 0xE2, 0xBF, 0xA4, 0xED, 0x9F, 0x9B, 0x05, 0x48, 0xB2, 0xAC, 0x50, 0x74, 0xA2, 0x97] := by decide
/-- V2: TMH's own vector, seed 1. -/
theorem test_mh128_V2 : mh128 1 (digits 63) =
    [0x45, 0xA3, 0xCD, 0xB8, 0x38, 0x19, 0x9D, 0x7F, 0xBD, 0xD6, 0x8D, 0x86, 0x7A, 0x14, 0xEC, 0xEF] := by decide
/-- 3.3, row 40. -/
theorem test_mh128_forty : mh128 0x0123456789ABCDEF ((List.range 40).map count) =
    [0x42, 0xC0, 0x85, 0x63, 0xD9, 0xCD, 0xD3, 0xF0, 0x5D, 0xE0, 0x8B, 0xE0, 0x21, 0x41, 0xB5, 0x2C] := by decide
/-- 3.4. -/
theorem test_mh128_abc : mh128 0 [0x61, 0x62, 0x63] =
    [0xA7, 0x7B, 0xAF, 0x9F, 0xDB, 0x9C, 0xAB, 0x89, 0xA5, 0x01, 0xF8, 0xC1, 0x85, 0x63, 0xD8, 0x1C] := by decide

/-! ### One command each (95_test_vectors.md sections 4.2 and 5) -/

theorem test_nop_in_finalized : after (exec .nop (small .finalized 0)) = some (small .finalized 0) := by decide
/-- P5: INIT does not clear the error. -/
theorem test_init_keeps_err :
    (after (exec (.init 0) { small .finalized 0 with err := true, errCode := .first .seq })).map
        (fun t => (t.hash, t.bytes, statusPort t)) = some (seed0, 0, 0x1D) := by decide
/-- P2: PUSH "abc". -/
theorem test_push_abc :
    (after (exec (.push [0x61, 0x62, 0x63]) (small .active 0))).map (fun t => (t.hash, t.carry, t.bytes)) =
      some (seed0, [(0, 0x61), (1, 0x62), (2, 0x63)], 3) := by decide
/-- P4: the seventh beat straddles the block boundary. -/
theorem test_push_straddles :
    (after (exec (.push [0x1E, 0x1F, 0x20, 0x21, 0x22]) { small .active 30 with
        hash := ⟨0xE2EEF8CF6F11D506, 0xE7176EB277E6A18E, 0x06FFF247AE5414F0, 0xEF2121555B8EC6E4⟩ })).map
        (fun t => (t.hash, t.carry.take 4, t.bytes)) =
      some (⟨0x8A2DA27D98EB4723, 0xBAD2BC8B8F10CED5, 0x6B7DBF8444ABE7BB, 0xEFAE576E365B2DE7⟩,
        [(0, 0x20), (1, 0x21), (2, 0x22), (3, 0x03)], 35) := by decide
/-- P2: FINAL after "abc". -/
theorem test_final_abc :
    (after (exec .final { small .active 3 with carry := [(0, 0x61), (1, 0x62), (2, 0x63)] })).map
        (fun t => (t.hash.A, t.hash.B, t.bytes, statusPort t)) =
      some (0x89AB9CDB9FAF7BA7, 0x1CD86385C1F801A5, 0, 0x02) := by decide
/-- P3: FINAL after `S(63)`, with BFIN and all five pieces. -/
theorem test_final_V1 :
    (after (exec .final { small .active 63 with
        hash := ⟨0xE05A069B0B98141A, 0x93906E898CE7C54A, 0xBA16C90838D41068, 0x00DCA1771AD4DFA1⟩
        carry := (List.range 31).zip ((digits 63).drop 32) })).map State.hash =
      some ⟨0x9B9FEDA4BFE27CC7, 0x97A27450ACB24805, 0xFE08EB1DF1077970, 0x808C98402396ECD0⟩ := by decide

/-- 4.2, rows 1 to 4: words sent right after reset, as the status port shows them. -/
theorem test_rejects_after_reset :
    (after (step (State.reset.withFetchWord 72 0x2C0000000000000000))).map statusPort = some 0x14 ∧
    (after (step (State.reset.withFetchWord 72 0x900000000000000000))).map statusPort = some 0x0C ∧
    (after (step (State.reset.withFetchWord 72 0x300000000000000000))).map statusPort = some 0x1C ∧
    (after (step (State.reset.withFetchWord 72 0x200000000000000000))).map statusPort = some 0x1C ∧
    (after (step (State.reset.withFetchWord 72 0x100000000000000000))).map statusPort = some 0x01 := by decide

/-- The state of 4.2, row 5: BYTES is 2^64 - 4. -/
def nearlyFull : State := { small .active 0 with bytes := 0xFFFFFFFFFFFFFFFC }

/-- 4.2, rows 5 and 6: LENOVF, and then the three bytes that fit. -/
theorem test_lenovf :
    after (exec (.push [0, 0, 0, 0]) nearlyFull) = some { nearlyFull with err := true, errCode := .first .lenovf } ∧
    (after (exec (.push [0, 0, 0, 0]) nearlyFull)).map statusPort = some 0x25 ∧
    (after (exec (.push [1, 2, 3]) nearlyFull)).map (fun t => (t.carry, t.bytes, t.hash)) =
      some ([(28, 1), (29, 2), (30, 3)], 0xFFFFFFFFFFFFFFFF, seed0) := by decide

/-- P1's digest on the port. -/
theorem test_digest_port :
    digestBytes { small .finalized 0 with hash := aval seed0 } =
      some [0xCB, 0xD1, 0x41, 0x3D, 0xCA, 0xF3, 0x05, 0x00, 0xB6, 0x5F, 0xC6, 0x84, 0x46, 0xB1, 0x06, 0x46] := by decide

/-- R9, R52: a little-endian read, and a byte FF that is not sign-extended. -/
theorem test_memRead : memRead (counting 32) 24 .w8 = .ok 0x1F1E1D1C1B1A1918 ∧ memRead [(5, 0xFF)] 5 .w1 = .ok 0xFF := by
  exact ⟨rfl, rfl⟩

/-! ### Witnesses: for every statement with hypotheses, a state and operands that meet all of them, and one for each clause -/

/-- The error flags of a state whose first reject was SEQ. -/
def failed (s : State) : State := { s with err := true, errCode := .first .seq }

/-- A drive with `rst` high and a command on the port. -/
def resetDrive : HostDrive := ⟨true, true, 0x300000000000000000⟩

/-- A drive with neither reset nor command. -/
def idleDrive : HostDrive := ⟨false, false, 0x300000000000000000⟩

theorem carryHolds_counting : CarryHolds (counting 31) 31 count := by unfold CarryHolds; decide

theorem witness_DecodeOfEncodeIsTheCommand :
    WellFormed .nop ∧ WellFormed (.init 0) ∧ WellFormed (.push []) ∧ WellFormed (.push (digits 8)) ∧
    WellFormed .final := by decide

theorem witness_EncodeOfDecodeIsTheWordRead :
    decode 0x000000000000000000 = .ok .nop ∧ decode 0x10FFFFFFFFFFFFFFFF = .ok (.init 0xFFFFFFFFFFFFFFFF) ∧
    decode 0x21FFFFFFFFFFFFFF61 = .ok (.push [0x61]) ∧ decode 0x300000000000000000 = .ok .final :=
  ⟨rfl, rfl, rfl, rfl⟩

theorem witness_PushIgnoresLanesAtAndAboveN :
    opField 0x230000000000636261 = 2 ∧ opField 0x23DEADBEEF00636261 = 2 ∧
    nField 0x230000000000636261 = nField 0x23DEADBEEF00636261 ∧
    ∀ k < (nField 0x230000000000636261).toNat,
      lane (payloadField 0x230000000000636261) k = lane (payloadField 0x23DEADBEEF00636261) k := by decide

theorem witness_StepRunsThePresentedCommand :
    (Presents (given (small .idle 0) 0x100000000000000005) 0x100000000000000005 ∧
      decode 0x100000000000000005 = .ok (.init 5)) ∧
    (Presents (given (small .idle 0) 0x400000000000000000) 0x400000000000000000 ∧
      decode 0x400000000000000000 = .error .illop) := ⟨⟨given_presents _ _, rfl⟩, given_presents _ _, rfl⟩

theorem witness_StepWithoutCommandDoesNothing :
    (small .active 3).host = [] ∧
    ({ small .active 3 with host := [idleDrive] } : State).host = [idleDrive] ∧ idleDrive.rst = false ∧
    idleDrive.cmdValid = false := ⟨rfl, rfl, rfl, rfl⟩

theorem witness_ResetInputTakesTheResetState :
    ({ failed (small .active 63) with host := [resetDrive] } : State).host = [resetDrive] ∧ resetDrive.rst = true :=
  ⟨rfl, rfl⟩

/-- An accepted command, and a rejected one. -/
theorem witness_EveryCommandAdvancesByOne :
    (Presents (given (small .active 3) 0x220000000000000000) 0x220000000000000000 ∧
      ∃ t, step (given (small .active 3) 0x220000000000000000) = .next t) ∧
    (Presents (given (small .idle 0) 0xF00000000000000000) 0xF00000000000000000 ∧
      ∃ t, step (given (small .idle 0) 0xF00000000000000000) = .next t) :=
  ⟨⟨given_presents _ _, _, rfl⟩, given_presents _ _, _, rfl⟩

/-- Each cause at the edge of its condition: `op` 4, `n` 9, PUSH of no byte outside ACTIVE, `BYTES + n` exactly 2^64. -/
theorem witness_RejectedWordWritesOnlyErr :
    Rejected 0x400000000000000000 (small .idle 0) .illop ∧ Rejected 0x290000000000000000 (small .idle 0) .illfmt ∧
    Rejected 0x200000000000000000 (small .finalized 0) .seq ∧ Rejected 0x240000000000000000 nearlyFull .lenovf := by
  refine ⟨.illop (by decide), .illfmt ?_, .seq ?_ (by decide) (by decide), .lenovf ?_ (by decide) (by decide) (by decide)⟩ <;>
    unfold IllegalFormat <;> decide

/-- A presented word that is rejected. -/
theorem witness_presented_and_rejected :
    Presents (given nearlyFull 0x240000000000000000) 0x240000000000000000 ∧
    Rejected 0x240000000000000000 (given nearlyFull 0x240000000000000000) .lenovf :=
  ⟨given_presents _ _, .lenovf (by unfold IllegalFormat; decide) (by decide) (by decide) (by decide)⟩

/-- Each check at its edge: `op` 4 with `n` 15; NOP with payload 1; a PUSH of 4 bytes that would overflow, outside ACTIVE; the
same in ACTIVE; and words that run from a state with no reject before them, one rejected and one accepted. -/
theorem witness_RejectReportsOneCause :
    4 ≤ (opField 0x4F0000000000000001).toNat ∧ IllegalFormat 0x000000000000000001 ∧
    (¬ IllegalFormat 0x240000000000000000 ∧ opField 0x240000000000000000 = 2 ∧
      ({ nearlyFull with phase := .idle } : State).phase ≠ .active) ∧
    (¬ IllegalFormat 0x240000000000000000 ∧ opField 0x240000000000000000 = 2 ∧ nearlyFull.phase = .active ∧
      2 ^ 64 ≤ nearlyFull.bytes.toNat + (nField 0x240000000000000000).toNat) ∧
    Rejected 0x240000000000000000 nearlyFull .lenovf ∧
    (nearlyFull.err = false ∧ nearlyFull.errCode = .none ∧
      (∃ t, runWord 0x240000000000000000 nearlyFull = .next t) ∧
      ∃ t, runWord 0x230000000000000000 nearlyFull = .next t) := by
  refine ⟨by decide, by unfold IllegalFormat; decide, by unfold IllegalFormat; decide, by unfold IllegalFormat; decide,
    witness_RejectedWordWritesOnlyErr.2.2.2, rfl, rfl, ⟨_, rfl⟩, _, rfl⟩

theorem witness_PushValidatesInOrder :
    8 < (digits 9).length ∧ ((digits 8).length ≤ 8 ∧ (small .idle 0).phase ≠ .active) ∧
    ((digits 4).length ≤ 8 ∧ nearlyFull.phase = .active ∧ 2 ^ 64 ≤ nearlyFull.bytes.toNat + (digits 4).length) := by decide

theorem witness_FinalOutsideActiveIsRejected :
    (small .idle 0).phase ≠ .active ∧ (small .finalized 0).phase ≠ .active := by decide

/-- Accepted words of each command at the edges of the checks. -/
theorem witness_Accepted :
    Accepted 0x000000000000000000 (small .idle 0) ∧ Accepted 0x100000000000000000 (small .finalized 0) ∧
    Accepted 0x230000000000030201 nearlyFull ∧ Accepted 0x300000000000000000 (small .active 0) := by
  refine ⟨accepted_iff.mpr ?_, accepted_iff.mpr ?_, accepted_iff.mpr ?_, accepted_iff.mpr ?_⟩ <;>
    unfold IllegalFormat <;> decide

theorem witness_AcceptedWordWritesNoFlag :
    Presents (given (failed (small .active 3)) 0x300000000000000000) 0x300000000000000000 ∧
    Accepted 0x300000000000000000 (given (failed (small .active 3)) 0x300000000000000000) ∧
    ∃ t, step (given (failed (small .active 3)) 0x300000000000000000) = .next t :=
  ⟨given_presents _ _, by simp only [accepted_iff, IllegalFormat]; decide, _, rfl⟩

/-- A reset, a reject, and a step that changes the flags: the hypotheses of both flag statements. -/
theorem witness_ErrIsStickyAndUnread_and_ErrCodeRecordsTheFirstCause :
    (({ failed (small .active 3) with host := [resetDrive] } : State).host = [resetDrive] ∧ resetDrive.rst = true ∧
      ∃ t, step { failed (small .active 3) with host := [resetDrive] } = .next t) ∧
    (Presents (given (small .idle 0) 0x300000000000000000) 0x300000000000000000 ∧
      Rejected 0x300000000000000000 (given (small .idle 0) 0x300000000000000000) .seq ∧
      (given (small .idle 0) 0x300000000000000000).err = false) ∧
    (NoReset (given (small .idle 0) 0x300000000000000000) ∧
      ∃ t, step (given (small .idle 0) 0x300000000000000000) = .next t ∧
        t.err ≠ (given (small .idle 0) 0x300000000000000000).err ∧
        t.errCode ≠ (given (small .idle 0) 0x300000000000000000).errCode) :=
  ⟨⟨rfl, rfl, _, rfl⟩,
   ⟨given_presents _ _, .seq (by unfold IllegalFormat; decide) (by decide) (by decide), rfl⟩,
   by unfold NoReset; decide, _, rfl, by decide, by decide⟩

/-- A reset, an INIT from IDLE, a FINAL in ACTIVE, and a rejected FINAL. -/
theorem witness_PhaseTransitions :
    (¬ NoReset { small .active 3 with host := [resetDrive] } ∧
      ∃ t, step { small .active 3 with host := [resetDrive] } = .next t) ∧
    (Presents (given (small .idle 0) 0x100000000000000005) 0x100000000000000005 ∧
      decode 0x100000000000000005 = .ok (.init 5) ∧
      ∃ t, step (given (small .idle 0) 0x100000000000000005) = .next t) ∧
    (Presents (given (small .active 31) 0x300000000000000000) 0x300000000000000000 ∧
      decode 0x300000000000000000 = .ok .final ∧ (given (small .active 31) 0x300000000000000000).phase = .active ∧
      ∃ t, step (given (small .active 31) 0x300000000000000000) = .next t) ∧
    (NoReset (given (small .idle 0) 0x300000000000000000) ∧
      (∀ w seed, Presents (given (small .idle 0) 0x300000000000000000) w → decode w ≠ .ok (.init seed)) ∧
      (∀ w, Presents (given (small .idle 0) 0x300000000000000000) w → decode w = .ok .final →
        (given (small .idle 0) 0x300000000000000000).phase ≠ .active) ∧
      ∃ t, step (given (small .idle 0) 0x300000000000000000) = .next t) := by
  refine ⟨⟨by unfold NoReset; decide, _, rfl⟩, ⟨given_presents _ _, rfl, _, rfl⟩,
    ⟨given_presents _ _, rfl, rfl, _, rfl⟩, by unfold NoReset; decide, fun w seed h hd => ?_, fun _ _ _ => by decide, _, rfl⟩
  rw [presents_unique h (given_presents _ _)] at hd
  cases hd

/-- PUSH up to BYTES = 2^64 - 1, INIT, and FINAL: each accepted and taken. -/
theorem witness_BytesCountsDataBytes :
    (Presents (given nearlyFull 0x230000000000030201) 0x230000000000030201 ∧
      Accepted 0x230000000000030201 (given nearlyFull 0x230000000000030201) ∧
      (∃ t, step (given nearlyFull 0x230000000000030201) = .next t) ∧
      decode 0x230000000000030201 = .ok (.push [1, 2, 3])) ∧
    (Presents (given (small .active 31) 0x100000000000000000) 0x100000000000000000 ∧
      Accepted 0x100000000000000000 (given (small .active 31) 0x100000000000000000) ∧
      (∃ t, step (given (small .active 31) 0x100000000000000000) = .next t) ∧
      decode 0x100000000000000000 = .ok (.init 0)) ∧
    (Presents (given (small .active 31) 0x300000000000000000) 0x300000000000000000 ∧
      Accepted 0x300000000000000000 (given (small .active 31) 0x300000000000000000) ∧
      (∃ t, step (given (small .active 31) 0x300000000000000000) = .next t) ∧
      decode 0x300000000000000000 = .ok .final) := by
  simp only [accepted_iff, IllegalFormat]
  exact ⟨⟨given_presents _ _, by decide, ⟨_, rfl⟩, rfl⟩, ⟨given_presents _ _, by decide, ⟨_, rfl⟩, rfl⟩,
    given_presents _ _, by decide, ⟨_, rfl⟩, rfl⟩

/-- A rejected PUSH: no accepted word but NOP is presented. -/
theorem witness_OnlyAcceptedCommandsWriteTheHash :
    NoReset (given nearlyFull 0x240000000000000000) ∧
    (∀ w i, Presents (given nearlyFull 0x240000000000000000) w → decode w = .ok i →
      Accepted w (given nearlyFull 0x240000000000000000) → i = .nop) ∧
    ∃ t, step (given nearlyFull 0x240000000000000000) = .next t := by
  refine ⟨by unfold NoReset; decide, fun w i h _ ha => ?_, _, rfl⟩
  rw [presents_unique h (given_presents _ _)] at ha
  exact absurd witness_presented_and_rejected.2 (ha _)

/-- FINAL, which is no PUSH; and a PUSH of 3 bytes at 30, which leaves byte 1 alone. -/
theorem witness_OnlyPushWritesCarry :
    (NoReset (given (small .active 31) 0x300000000000000000) ∧
      (∃ t, step (given (small .active 31) 0x300000000000000000) = .next t) ∧
      ∀ w d, Presents (given (small .active 31) 0x300000000000000000) w → decode w ≠ .ok (.push d)) ∧
    (NoReset (given (small .active 30) 0x230000000000636261) ∧
      (∃ t, step (given (small .active 30) 0x230000000000636261) = .next t) ∧
      Presents (given (small .active 30) 0x230000000000636261) 0x230000000000636261 ∧
      decode 0x230000000000636261 = .ok (.push [0x61, 0x62, 0x63]) ∧
      ∀ k < 3, ((given (small .active 30) 0x230000000000636261).bytes.toNat + k) % 32 ≠ 1) := by
  refine ⟨⟨by unfold NoReset; decide, ⟨_, rfl⟩, fun w d h hd => ?_⟩, by unfold NoReset; decide, ⟨_, rfl⟩,
    given_presents _ _, rfl, by decide⟩
  rw [presents_unique h (given_presents _ _)] at hd
  cases hd

theorem witness_FinalizedAcceptsOnlyNopAndInit :
    ((small .active 31).phase = .active ∧ ∃ t, exec .final (small .active 31) = .next t) ∧
    (small .finalized 0).phase = .finalized ∧ decode 0x300000000000000000 = .ok .final ∧
    decode 0x200000000000000000 = .ok (.push []) ∧ ∀ seed, decode 0x110000000000000000 ≠ .ok (.init seed) :=
  ⟨⟨rfl, _, rfl⟩, rfl, rfl, rfl, fun _ h => by cases h⟩

theorem witness_DigestIsStable :
    (given (small .finalized 0) 0x300000000000000000).phase = .finalized ∧
    NoReset (given (small .finalized 0) 0x300000000000000000) ∧
    (∀ w seed, Presents (given (small .finalized 0) 0x300000000000000000) w → decode w ≠ .ok (.init seed)) ∧
    ∃ t, step (given (small .finalized 0) 0x300000000000000000) = .next t := by
  refine ⟨rfl, by unfold NoReset; decide, fun w seed h hd => ?_, _, rfl⟩
  rw [presents_unique h (given_presents _ _)] at hd
  cases hd

/-- A state in the middle of a hash that meets the invariant, with a PUSH presented that completes a block. -/
theorem witness_EngineInv : EngineInv (given (small .active 31) 0x2800000000000000FF) :=
  ⟨by decide, fun _ i hi => Option.isSome_of_eq_some (carryHolds_counting i hi), by decide, by decide⟩

theorem witness_StepKeepsTheInvariant : EngineInv (given (small .active 31) 0x2800000000000000FF) ∧
    ∃ t, step (given (small .active 31) 0x2800000000000000FF) = .next t := ⟨witness_EngineInv, _, rfl⟩

theorem witness_InvariantStepNeverStops : EngineInv (given (small .active 31) 0x2800000000000000FF) := witness_EngineInv

/-- The last double word of CARRY, and its last byte. -/
theorem witness_MemReadIsTheLittleEndianSum :
    (24 + Width.w8.bytes ≤ 32 ∧ ∀ k < Width.w8.bytes, Memory.get? (counting 32) (24 + k) = some (count (24 + k))) ∧
    (31 + Width.w1.bytes ≤ 32 ∧ ∀ k < Width.w1.bytes, Memory.get? (counting 32) (31 + k) = some (count (31 + k))) := by
  decide

/-- The last address, on a buffer in canonical form; the clause for 32 and above needs no more than its bound. -/
theorem witness_MemWriteThenRead : 31 < 32 ∧ Memory.wf (counting 32) = true ∧ 32 ≤ 32 := by decide

theorem witness_WideReadIsTwoNarrowReads : memRead (counting 32) 24 .w8 = .ok 0x1F1E1D1C1B1A1918 := by rfl

theorem witness_TailReadsAreMemReads :
    readBytes (counting 31) 0 31 = .ok ((List.range 31).map count) ∧ 30 + Width.w1.bytes ≤ 31 := ⟨rfl, by decide⟩

theorem witness_RotrMovesBits : (0 < 1 ∧ 1 < 64) ∧ (0 < 63 ∧ 63 < 64) ∧ 63 < 64 := by decide

theorem witness_TailPiecesByTheBitsOfR : ([] : List Byte).length ≤ 31 ∧ (digits 31).length ≤ 31 := by decide

theorem witness_AvalancheLines : (⟨0, 0, 1, 2⟩ : HashState).A = 0 ∧ (⟨0, 0, 1, 2⟩ : HashState).B = 0 := ⟨rfl, rfl⟩

theorem witness_NopLeavesTheState :
    Presents (given (small .active 3) 0x000000000000000000) 0x000000000000000000 := given_presents _ _

/-- A beat that fills CARRY to byte 30, one that completes the block and runs on, and one that takes BYTES to 2^64 - 1. -/
theorem witness_PushStoresAndMixes :
    ((small .active 23).phase = .active ∧ (digits 8).length ≤ 8 ∧
      (small .active 23).bytes.toNat + (digits 8).length < 2 ^ 64 ∧ ¬ 32 ≤ (small .active 23).fill + (digits 8).length) ∧
    ((small .active 63).phase = .active ∧ (small .active 63).bytes.toNat + (digits 8).length < 2 ^ 64 ∧
      32 ≤ (small .active 63).fill + (digits 8).length ∧ CarryHolds (small .active 63).carry (small .active 63).fill count) ∧
    (nearlyFull.phase = .active ∧ nearlyFull.bytes.toNat + (digits 3).length < 2 ^ 64 ∧
      ¬ 32 ≤ nearlyFull.fill + (digits 3).length) :=
  ⟨by decide, ⟨by decide, by decide, by decide, carryHolds_counting⟩, by decide⟩

theorem witness_EmptyPushChangesNothing : (small .active 31).phase = .active := rfl

/-- The empty input, one short of a block, and one short of two blocks. -/
theorem witness_FinalCompletes :
    ((small .active 0).phase = .active ∧ CarryHolds (small .active 0).carry (small .active 0).fill count) ∧
    ((small .active 31).phase = .active ∧ CarryHolds (small .active 31).carry (small .active 31).fill count) ∧
    ((small .active 63).phase = .active ∧ CarryHolds (small .active 63).carry (small .active 63).fill count) :=
  ⟨⟨rfl, fun i h => absurd h (Nat.not_lt_zero i)⟩, ⟨rfl, carryHolds_counting⟩, rfl, carryHolds_counting⟩

/-- Byte 30 holds no value; a PUSH of one byte would complete the block. -/
theorem witness_ReadOfNoValueFaults :
    ({ small .active 31 with carry := counting 30 } : State).phase = .active ∧
    30 < ({ small .active 31 with carry := counting 30 } : State).fill ∧
    (∀ j < 30, (Memory.get? (counting 30) j).isSome) ∧ Memory.get? (counting 30) 30 = none ∧
    [(7 : Byte)].length ≤ 8 ∧
    ({ small .active 31 with carry := counting 30 } : State).bytes.toNat + [(7 : Byte)].length < 2 ^ 64 ∧
    32 ≤ ({ small .active 31 with carry := counting 30 } : State).fill + [(7 : Byte)].length := by decide

/-- A reset, an INIT, and an accepted FINAL, each from BYTES 31. -/
theorem witness_BytesPortShowsBytes :
    (({ small .active 31 with host := [resetDrive] } : State).host = [resetDrive] ∧ resetDrive.rst = true ∧
      ∃ t, step { small .active 31 with host := [resetDrive] } = .next t) ∧
    (decode 0x100000000000000005 = .ok (.init 5) ∧ ∃ t, runWord 0x100000000000000005 (small .active 31) = .next t) ∧
    (decode 0x300000000000000000 = .ok .final ∧ Accepted 0x300000000000000000 (small .active 31) ∧
      ∃ t, runWord 0x300000000000000000 (small .active 31) = .next t) :=
  ⟨⟨rfl, rfl, _, rfl⟩, ⟨rfl, _, rfl⟩, rfl, accepted_iff.mpr (by unfold IllegalFormat; decide), _, rfl⟩

theorem witness_DigestPortBytes : (small .finalized 0).phase = .finalized ∧ (small .active 3).phase ≠ .finalized := by
  decide

/-- The engine holds the empty message after INIT, and 31 bytes after them; one byte more completes the block. -/
theorem witness_PushExtendsTheMessage :
    (Holds 0 [] (small .active 0) ∧ (digits 8).length ≤ 8 ∧ ([] : List Byte).length + (digits 8).length < 2 ^ 64) ∧
    (Holds 0 ((List.range 31).map count) (small .active 31) ∧ [(7 : Byte)].length ≤ 8) :=
  ⟨⟨⟨rfl, by decide, rfl, by decide⟩, by decide⟩, ⟨rfl, by decide, rfl, by decide⟩, by decide⟩

/-- NOP, a PUSH of no byte and a PUSH of 8 bytes between INIT and FINAL. -/
theorem witness_ChunkingEquivalence :
    (∀ i ∈ [Instr.nop, .push [], .push (digits 8)], Feeds i) ∧
    (dataOf [Instr.nop, .push [], .push (digits 8)]).length < 2 ^ 64 := by
  refine ⟨fun i hi => ?_, by decide⟩
  simp only [List.mem_cons, List.not_mem_nil, or_false] at hi
  rcases hi with rfl | rfl | rfl
  · trivial
  · exact Nat.zero_le _
  · show (digits 8).length ≤ maxBeat
    decide

/-- A chunk of 9 bytes cut as 0 + 8 + 1, on a buffer one short of a block. -/
theorem witness_BeatsAgreeWithUpdate :
    (small .active 31).phase = .active ∧ CarryReadable (small .active 31).carry (small .active 31).fill ∧
    (small .active 31).bytes.toNat + (digits 9).length < 2 ^ 64 ∧
    [[], (digits 9).take 8, (digits 9).drop 8].flatten = digits 9 ∧
    ∀ d ∈ [[], (digits 9).take 8, (digits 9).drop 8], d.length ≤ 8 :=
  ⟨rfl, fun i hi => Option.isSome_of_eq_some (carryHolds_counting i hi), by decide, by decide, by decide⟩

theorem witness_HashLeavesTheDigest : (digits 63).length < 2 ^ 64 := by decide

theorem witness_AssemblerWritesZeroLanes :
    (0 ≤ 8 ∧ 0xFFFFFFFFFFFFFFFF < 2 ^ 64) ∧ (8 ≤ 8 ∧ 0xFFFFFFFFFFFFFFFF < 2 ^ 64) ∧ 3 < 8 := by decide

/-- FINAL after 31 bytes, and a PUSH that ends at byte 31. -/
theorem witness_ShortMessageIgnoresCAndD :
    (small .active 31).phase = .active ∧ (small .active 31).bytes.toNat < 32 ∧
    (small .active 23).bytes.toNat + (digits 8).length < 32 := by decide

/-- Two states that differ in a stale byte of CARRY, and two that differ in C and D after FINAL. -/
theorem witness_Indistinguishable :
    Indistinguishable (small .active 3) { small .active 3 with carry := counting 4 } ∧
    small .active 3 ≠ { small .active 3 with carry := counting 4 } ∧
    Indistinguishable (small .finalized 0) (withCD 1 2 (small .finalized 0)) ∧
    small .finalized 0 ≠ withCD 1 2 (small .finalized 0) := by
  refine ⟨⟨rfl, rfl, rfl, rfl, rfl, rfl, rfl, fun _ => rfl, fun h => ⟨rfl, rfl⟩, fun _ => ?_⟩, by decide,
    ⟨rfl, rfl, rfl, rfl, rfl, rfl, rfl, fun h => ?_, fun _ => ⟨rfl, rfl⟩, fun h => ?_⟩, by decide⟩
  · decide
  · exact absurd h (by decide)
  · exact absurd h (by decide)

end Sys2Proof.Tests
end

section
/-! What the decoder answers, by the checks on a word's fields (R72 to R77). -/

namespace Sys2Proof.Machine

/-- A word with a reserved opcode is refused with ILLOP, whatever its other fields are. -/
theorem decode_of_reserved {w : CmdWord} (h : 4 ≤ (opField w).toNat) : decode w = .error .illop := if_pos h

/-- A word of malformed fields is refused with ILLFMT: its opcode is not reserved. -/
theorem decode_of_illegalFormat {w : CmdWord} (h : IllegalFormat w) : decode w = .error .illfmt := by
  have hop : ¬ 4 ≤ (opField w).toNat := by
    rcases h with ⟨h, -⟩ | ⟨h, -⟩ | ⟨h, -⟩ | ⟨h, -⟩ <;> rw [h] <;> decide
  simp only [decode, if_neg hop]
  rcases h with h | h | h | h
  · rw [if_pos h]
  · rw [if_pos h, ite_self]
  · rw [if_pos h, ite_self, ite_self]
  · rw [if_pos h, ite_self, ite_self, ite_self]

/-- What the decoder answers on a word that fails neither of its checks. -/
theorem decode_of_legal {w : CmdWord} (hop : (opField w).toNat < 4) (hf : ¬ IllegalFormat w) :
    decode w =
      if opField w = 0 then .ok .nop
      else if opField w = 1 then .ok (.init (payloadField w))
      else if opField w = 2 then .ok (.push (pushData (nField w).toNat (payloadField w)))
      else .ok .final := by
  simp only [IllegalFormat, not_or] at hf
  obtain ⟨hnop, hinit, hpush, hfinal⟩ := hf
  simp only [decode, if_neg (Nat.not_le.mpr hop), if_neg hnop, if_neg hinit, if_neg hpush, if_neg hfinal]

@[simp] theorem pushData_length (n : Nat) (p : Word) : (pushData n p).length = n := by simp [pushData]

/-- A PUSH that is not malformed has at most 8 data bytes. -/
theorem nField_le_of_legal_push {w : CmdWord} (hf : ¬ IllegalFormat w) (hop : opField w = 2) :
    (nField w).toNat ≤ 8 :=
  Nat.le_of_not_lt fun hn => hf (.inr (.inr (.inl ⟨hop, hn⟩)))

theorem decode_of_legal_push {w : CmdWord} (hf : ¬ IllegalFormat w) (hop : opField w = 2) :
    decode w = .ok (.push (pushData (nField w).toNat (payloadField w))) := by
  rw [decode_of_legal (by rw [hop]; decide) hf, hop]
  rfl

theorem decode_of_legal_final {w : CmdWord} (hf : ¬ IllegalFormat w) (hop : opField w = 3) :
    decode w = .ok .final := by
  rw [decode_of_legal (by rw [hop]; decide) hf, hop]
  rfl

end Sys2Proof.Machine
end

section
/-! What a command word does: a rejected one leaves the reject's state and nothing else, an accepted one is its command past
all its checks, which leaves the flags (R161 to R168; 41_engine_commands.md, "Common to all"). -/

namespace Sys2Proof.Machine

theorem exec_push (d : List Byte) (s : State) : exec (.push d) s = execPush d s := rfl
theorem exec_final (s : State) : exec .final s = execFinal s := rfl

theorem runWord_of_decode_ok {w : CmdWord} {i : Instr} (h : decode w = .ok i) (s : State) :
    runWord w s = exec i s := by rw [runWord, h]

theorem runWord_of_decode_error {w : CmdWord} {e : Illegal} (h : decode w = .error e) (s : State) :
    runWord w s = .next (reject (illegalCause e) s) := by simp [runWord, h]

/-! ### Rejected words -/

theorem execPush_of_overlong {d : List Byte} {s : State} (hd : 8 < d.length) :
    execPush d s = .next (reject .illfmt s) := if_pos hd

theorem execPush_of_not_active {d : List Byte} {s : State} (hd : d.length ≤ 8) (hp : s.phase ≠ .active) :
    execPush d s = .next (reject .seq s) := by
  rw [execPush, if_neg (Nat.not_lt.mpr hd), if_pos hp]

theorem execPush_of_overflow {d : List Byte} {s : State} (hd : d.length ≤ 8) (hp : s.phase = .active)
    (hn : 2 ^ 64 ≤ s.bytes.toNat + d.length) : execPush d s = .next (reject .lenovf s) := by
  rw [execPush, if_neg (Nat.not_lt.mpr hd), if_neg (not_not.mpr hp), 
    if_pos (by simpa [overflows] using hn)]

theorem execPush_of_accepted {d : List Byte} {s : State} (hd : d.length ≤ 8) (hp : s.phase = .active)
    (hn : s.bytes.toNat + d.length < 2 ^ 64) : execPush d s = settle (pushBytes d s) := by
  rw [execPush, if_neg (Nat.not_lt.mpr hd), if_neg (not_not.mpr hp),
    if_neg (by simpa [overflows] using hn)]

theorem execFinal_of_not_active {s : State} (hp : s.phase ≠ .active) : execFinal s = .next (reject .seq s) := if_pos hp

/-- A rejected word is a next state, the one its cause's reject leaves (R162). -/
theorem runWord_of_rejected {w : CmdWord} {s : State} {c : Cause} (h : Rejected w s c) :
    runWord w s = .next (reject c s) := by
  cases h with
  | illop h => exact runWord_of_decode_error (decode_of_reserved h) s
  | illfmt h => exact runWord_of_decode_error (decode_of_illegalFormat h) s
  | seq hf hop hp =>
    rcases hop with hop | hop
    · rw [runWord_of_decode_ok (decode_of_legal_push hf hop), exec_push,
        execPush_of_not_active (by simpa using nField_le_of_legal_push hf hop) hp]
    · rw [runWord_of_decode_ok (decode_of_legal_final hf hop), exec_final, execFinal_of_not_active hp]
  | lenovf hf hop hp hn =>
    rw [runWord_of_decode_ok (decode_of_legal_push hf hop), exec_push,
      execPush_of_overflow (by simpa using nField_le_of_legal_push hf hop) hp (by simpa using hn)]

/-- The checks read PHASE and BYTES, which taking the command leaves. -/
theorem rejected_takeCommand {w : CmdWord} {s : State} {c : Cause} (h : Rejected w s c) :
    Rejected w (takeCommand s) c := by
  cases h with
  | illop h => exact .illop h
  | illfmt h => exact .illfmt h
  | seq hf hop hp => exact .seq hf hop hp
  | lenovf hf hop hp hn => exact .lenovf hf hop hp hn

theorem accepted_takeCommand {w : CmdWord} {s : State} (h : Accepted w s) : Accepted w (takeCommand s) :=
  accepted_iff.mpr (accepted_iff.mp h :)

theorem step_of_rejected {s : State} {w : CmdWord} {c : Cause} (hp : Presents s w) (hr : Rejected w s c) :
    step s = .next (reject c (takeCommand s)) := by
  rw [step_presents hp, runWord_of_rejected (rejected_takeCommand hr)]

/-! ### Accepted words -/

/-- An accepted word is a command past its checks: NOP, INIT, PUSH in ACTIVE, FINAL in ACTIVE. -/
theorem runWord_of_accepted {w : CmdWord} {s : State} (h : Accepted w s) :
    (decode w = .ok .nop ∧ runWord w s = .next s) ∨
    (∃ seed, decode w = .ok (.init seed) ∧ runWord w s = execInit seed s) ∨
    (∃ d, decode w = .ok (.push d) ∧ s.phase = .active ∧ runWord w s = settle (pushBytes d s)) ∨
    (decode w = .ok .final ∧ s.phase = .active ∧ runWord w s = execFinal s) := by
  obtain ⟨h4, hf, hphase, hbytes⟩ := accepted_iff.mp h
  have hdec := decode_of_legal h4 hf
  by_cases h0 : opField w = 0
  · rw [if_pos h0] at hdec
    exact .inl ⟨hdec, runWord_of_decode_ok hdec s⟩
  by_cases h1 : opField w = 1
  · rw [if_neg h0, if_pos h1] at hdec
    exact .inr (.inl ⟨_, hdec, runWord_of_decode_ok hdec s⟩)
  by_cases h2 : opField w = 2
  · have hp := hphase (.inl h2)
    have hpush := execPush_of_accepted (d := pushData (nField w).toNat (payloadField w))
      (by simpa using nField_le_of_legal_push hf h2) hp (by simpa using hbytes h2)
    have hd := decode_of_legal_push hf h2
    exact .inr (.inr (.inl ⟨_, hd, hp, (runWord_of_decode_ok hd s).trans hpush⟩))
  · have h3 : opField w = 3 := by bv_omega
    have hd := decode_of_legal_final hf h3
    exact .inr (.inr (.inr ⟨hd, hphase (.inr h3), runWord_of_decode_ok hd s⟩))

/-- What FINAL leaves where it is not rejected. -/
theorem execFinal_frame {s t : State} (hp : s.phase = .active) (h : execFinal s = .next t) :
    t = { s with hash := t.hash, bytes := 0, phase := .finalized } := by
  rcases execFinal_cases s with ⟨hne, -⟩ | ⟨-, f, -, hf⟩ | ⟨-, b, -, hb⟩
  · exact absurd hp hne
  · rw [hf] at h; cases h
  · rw [hb] at h; cases h; rfl

/-- An accepted word writes no flag. -/
theorem runWord_flags_of_accepted {w : CmdWord} {s t : State} (ha : Accepted w s) (h : runWord w s = .next t) :
    t.err = s.err ∧ t.errCode = s.errCode := by
  rcases runWord_of_accepted ha with ⟨-, hr⟩ | ⟨seed, -, hr⟩ | ⟨d, -, -, hr⟩ | ⟨-, hp, hr⟩ <;> rw [hr] at h
  · cases h
    exact ⟨rfl, rfl⟩
  · cases h
    exact ⟨rfl, rfl⟩
  · rw [pushBytes_frame (settle_eq_next.mp h)]
    exact ⟨rfl, rfl⟩
  · rw [execFinal_frame hp h]
    exact ⟨rfl, rfl⟩

end Sys2Proof.Machine
end

section
/-! ERR and ERRCODE: what a step does to them, and that no command reads them (R30, R31). -/

namespace Sys2Proof.Machine

/-! ### The flags along a step -/

/-- Every step without a reset does nothing to the engine, or runs the presented word. -/
theorem step_cases_of_noReset {s : State} (hn : NoReset s) :
    step s = .next s ∨ step s = .next (dropDrive s) ∨ ∃ w, Presents s w ∧ step s = runWord w (takeCommand s) := by
  rcases step_cases s with ⟨-, h⟩ | ⟨⟨d, rest, hs, hr⟩, -⟩ | ⟨-, h⟩ | h
  · exact .inl h
  · exact absurd (hn d (by simp [hs])) (by simp [hr])
  · exact .inr (.inl h)
  · exact .inr (.inr h)

/-- A step without a reset leaves both flags, or is the reject of the presented word. -/
theorem step_flags_cases {s t : State} (hn : NoReset s) (h : step s = .next t) :
    (t.err = s.err ∧ t.errCode = s.errCode) ∨
    ∃ w c, Presents s w ∧ Rejected w s c ∧ t = reject c (takeCommand s) := by
  rcases step_cases_of_noReset hn with hs | hs | ⟨w, hp, hs⟩
  · rw [hs] at h; cases h; exact .inl ⟨rfl, rfl⟩
  · rw [hs] at h; cases h; exact .inl ⟨rfl, rfl⟩
  · by_cases ha : Accepted w s
    · rw [hs] at h
      have hflags := runWord_flags_of_accepted (accepted_takeCommand ha) h
      exact .inl hflags
    · obtain ⟨c, hc⟩ := not_forall_not.mp ha
      rw [step_of_rejected hp hc] at h
      cases h
      exact .inr ⟨w, c, hp, hc, rfl⟩

/-! ### No command reads the flags -/

/-- A state with other flags. -/
def setFlags (e : Bool) (c : ErrCode) (s : State) : State := { s with err := e, errCode := c }

@[simp] theorem setFlags_carry (e : Bool) (c : ErrCode) (s : State) : (setFlags e c s).carry = s.carry := rfl
@[simp] theorem setFlags_bytes (e : Bool) (c : ErrCode) (s : State) : (setFlags e c s).bytes = s.bytes := rfl
@[simp] theorem setFlags_phase (e : Bool) (c : ErrCode) (s : State) : (setFlags e c s).phase = s.phase := rfl
@[simp] theorem setFlags_fill (e : Bool) (c : ErrCode) (s : State) : (setFlags e c s).fill = s.fill := rfl
@[simp] theorem clearErr_setFlags (e : Bool) (c : ErrCode) (s : State) : clearErr (setFlags e c s) = clearErr s := rfl
@[simp] theorem clearErr_reject (c : Cause) (s : State) : clearErr (reject c s) = clearErr s := rfl

theorem mixCarry_setFlags (e : Bool) (c : ErrCode) (s : State) :
    mixCarry (setFlags e c s) = (mixCarry s).map (setFlags e c) := by
  simp only [mixCarry, setFlags_carry]
  split <;> rfl

theorem pushByte_setFlags (b : Byte) (e : Bool) (c : ErrCode) (s : State) :
    pushByte b (setFlags e c s) = (pushByte b s).map (setFlags e c) := by
  rw [pushByte_eq, pushByte_eq, setFlags_fill]
  by_cases hf : s.fill = 31
  · rw [if_pos hf, if_pos hf]
    exact mixCarry_setFlags e c { s with carry := Memory.set s.carry 31 b, bytes := s.bytes + 1 }
  · rw [if_neg hf, if_neg hf]
    rfl

theorem pushBytes_setFlags (d : List Byte) (e : Bool) (c : ErrCode) (s : State) :
    pushBytes d (setFlags e c s) = (pushBytes d s).map (setFlags e c) := by
  induction d generalizing s with
  | nil => rfl
  | cons b d ih =>
    simp only [pushBytes, pushByte_setFlags]
    cases pushByte b s with
    | error f => rfl
    | ok t => exact ih t

/-- Two outcomes of a computation on CARRY that differ in flags only are one but for the flags. -/
theorem onNext_settle_setFlags (e : Bool) (c : ErrCode) (r : Except Fault State) :
    onNext clearErr (settle (r.map (setFlags e c))) = onNext clearErr (settle r) := by
  cases r <;> rfl

/-- No command reads ERR or ERRCODE. -/
theorem exec_setFlags (i : Instr) (e : Bool) (c : ErrCode) (s : State) :
    onNext clearErr (exec i (setFlags e c s)) = onNext clearErr (exec i s) := by
  cases i with
  | nop => rfl
  | init seed => rfl
  | push d =>
    rw [exec_push, exec_push]
    rcases execPush_cases d s with ⟨hd, h⟩ | ⟨hd, hp, h⟩ | ⟨hd, hp, hn, h⟩ | ⟨hd, hp, hn, h⟩
    · rw [h, execPush_of_overlong hd]; rfl
    · rw [h, execPush_of_not_active (s := setFlags e c s) hd hp]; rfl
    · rw [h, execPush_of_overflow (s := setFlags e c s) hd hp hn]; rfl
    · rw [h, execPush_of_accepted (s := setFlags e c s) hd hp hn, pushBytes_setFlags, onNext_settle_setFlags]
  | final =>
    rw [exec_final, exec_final]
    by_cases hp : s.phase = .active
    · simp only [execFinal, setFlags_phase, setFlags_carry, setFlags_fill, hp, ne_eq, not_true, if_false]
      cases readBytes s.carry 0 s.fill <;> rfl
    · rw [execFinal_of_not_active hp, execFinal_of_not_active (s := setFlags e c s) hp]
      rfl

/-! ### The statements -/

/-- Settles O17: a step leaves ERR or is a reject, and the four meanings commute with other flags. -/
theorem errIsStickyAndUnread : Obligations.ErrIsStickyAndUnread := by
  refine ⟨⟨rfl, ?_⟩, ?_, ?_, fun i s e c => exec_setFlags i e c s⟩
  · intro s t d rest hs hr h
    rw [step_reset hs hr] at h
    cases h
    rfl
  · intro s w c hp hr
    exact ⟨_, step_of_rejected hp hr, rfl⟩
  · intro s t hn h hne
    rcases step_flags_cases hn h with ⟨he, -⟩ | ⟨w, c, hp, hr, rfl⟩
    · exact absurd he hne
    · exact ⟨Bool.eq_false_of_not_eq_true fun he => hne (by simp [he]), w, c, hp, hr⟩

/-- Settles O18: a step leaves ERRCODE or is a reject, which writes it only where ERR is 0. -/
theorem errCodeRecordsTheFirstCause : Obligations.ErrCodeRecordsTheFirstCause := by
  refine ⟨⟨rfl, ?_⟩, ?_, ?_⟩
  · intro s t d rest hs hr h
    rw [step_reset hs hr] at h
    cases h
    rfl
  · intro s w c hp hr he
    exact ⟨_, step_of_rejected hp hr, by simp [he]⟩
  · intro s t hn h hne
    rcases step_flags_cases hn h with ⟨-, he⟩ | ⟨w, c, hp, hr, rfl⟩
    · exact absurd he hne
    · have he : s.err = false := Bool.eq_false_of_not_eq_true fun he => hne (by simp [he])
      exact ⟨he, w, c, hp, hr, by simp [he]⟩

end Sys2Proof.Machine
end

section
/-! PHASE along a step, and the bytes port (R29, R34). -/

namespace Sys2Proof.Machine

theorem exec_push_phase {d : List Byte} {s t : State} (h : exec (.push d) s = .next t) : t.phase = s.phase := by
  rw [exec_push] at h
  rcases execPush_cases d s with ⟨-, he⟩ | ⟨-, -, he⟩ | ⟨-, -, -, he⟩ | ⟨-, -, -, he⟩ <;> rw [he] at h
  · cases h; rfl
  · cases h; rfl
  · cases h; rfl
  · rw [pushBytes_frame (settle_eq_next.mp h)]

/-- A word that is neither INIT nor FINAL in ACTIVE keeps PHASE. -/
theorem runWord_phase {w : CmdWord} {s t : State} (hinit : ∀ seed, decode w ≠ .ok (.init seed))
    (hfinal : decode w = .ok .final → s.phase ≠ .active) (h : runWord w s = .next t) : t.phase = s.phase := by
  rcases runWord_cases w s with ⟨i, hd, hr⟩ | ⟨e, -, hr⟩ <;> rw [hr] at h
  · cases i with
    | nop => cases h; rfl
    | init seed => exact absurd hd (hinit seed)
    | push d => exact exec_push_phase h
    | final =>
      rw [exec_final, execFinal_of_not_active (hfinal hd)] at h
      cases h
      rfl
  · cases h; rfl

theorem exists_reset_of_not_noReset {s : State} (h : ¬ NoReset s) : ∃ d rest, s.host = d :: rest ∧ d.rst = true := by
  cases hs : s.host with
  | nil => exact absurd (fun d hd => by simp [hs] at hd) h
  | cons d rest => exact ⟨d, rest, rfl, by simpa [NoReset, hs] using h⟩

/-- Settles O19: a reset, an INIT, a FINAL in ACTIVE, and every other step. -/
theorem phaseTransitions : Obligations.PhaseTransitions := by
  refine ⟨rfl, fun s t h => ⟨?_, ?_, ?_, ?_⟩⟩
  · intro hn
    obtain ⟨d, rest, hs, hr⟩ := exists_reset_of_not_noReset hn
    rw [step_reset hs hr] at h
    cases h
    rfl
  · intro w seed hp hd
    rw [step_presents hp, runWord_of_decode_ok hd] at h
    cases h
    rfl
  · intro w hp hd hphase
    rw [step_presents hp, runWord_of_decode_ok hd] at h
    rw [execFinal_frame (s := takeCommand s) hphase h]
  · intro hn hinit hfinal
    rcases step_cases_of_noReset hn with hs | hs | ⟨w, hp, hs⟩ <;> rw [hs] at h
    · cases h; rfl
    · cases h; rfl
    · exact runWord_phase (s := takeCommand s) (fun seed => hinit w seed hp) (hfinal w hp) h

/-- Settles O58: the port is the register, which a reset, INIT and an accepted FINAL set to 0. -/
theorem bytesPortShowsBytes : Obligations.BytesPortShowsBytes := by
  refine ⟨fun _ => rfl, rfl, ?_, ?_, ?_⟩
  · intro s t d rest hs hr h
    rw [step_reset hs hr] at h
    cases h
    rfl
  · intro s t w seed hd h
    rw [runWord_of_decode_ok hd] at h
    cases h
    rfl
  · intro s t w hd ha h
    rcases runWord_of_accepted ha with ⟨hd', -⟩ | ⟨seed, hd', -⟩ | ⟨d, hd', -⟩ | ⟨-, hp, hr⟩
    · simp [hd] at hd'
    · simp [hd] at hd'
    · simp [hd] at hd'
    · rw [hr] at h
      rw [bytesPort, execFinal_frame hp h]

end Sys2Proof.Machine
end

section
/-! The fields of the status port (R32). -/

namespace Sys2Proof.Machine

theorem statusPort_phase (s : State) : (statusPort s).extractLsb' 0 2 = s.phase.code :=
  BitVec.extractLsb'_append_eq_right

theorem statusPort_err (s : State) : (statusPort s).getLsbD 2 = s.err := by
  rw [statusPort, BitVec.getLsbD_append, if_neg (by decide), BitVec.getLsbD_append, if_pos (by decide),
    BitVec.getLsbD_ofBool]
  simp

theorem statusPort_errCode (s : State) : (statusPort s).extractLsb' 3 3 = s.errCode.code :=
  calc (statusPort s).extractLsb' 3 3
      = ((0 : BitVec 2) ++ s.errCode.code ++ BitVec.ofBool s.err).extractLsb' 1 3 :=
        BitVec.extractLsb'_append_eq_of_le (by decide)
    _ = ((0 : BitVec 2) ++ s.errCode.code).extractLsb' 0 3 := BitVec.extractLsb'_append_eq_of_le (by decide)
    _ = s.errCode.code := BitVec.extractLsb'_append_eq_right

theorem statusPort_zero (s : State) : (statusPort s).extractLsb' 6 2 = 0 :=
  calc (statusPort s).extractLsb' 6 2
      = ((0 : BitVec 2) ++ s.errCode.code ++ BitVec.ofBool s.err).extractLsb' 4 2 :=
        BitVec.extractLsb'_append_eq_of_le (by decide)
    _ = ((0 : BitVec 2) ++ s.errCode.code).extractLsb' 3 2 := BitVec.extractLsb'_append_eq_of_le (by decide)
    _ = 0 := BitVec.extractLsb'_append_eq_left

/-- Settles O45: the port is the concatenation of its fields, each read back at its own place. -/
theorem statusPortFields : Obligations.StatusPortFields := by
  refine ⟨rfl, fun s => ⟨?_, statusPort_err s, ?_, statusPort_zero s⟩⟩
  · rw [statusPort_phase]
    cases s.phase <;> rfl
  · rw [statusPort_errCode]
    cases s.errCode with
    | none => rfl
    | first c => cases c <;> rfl

end Sys2Proof.Machine
end

section
/-! The value a read of CARRY answers (R52). -/

namespace Sys2Proof.Machine

theorem Width.bytes_le_eight (n : Width) : n.bytes ≤ 8 := by cases n <;> decide

/-- A run of CARRY whose bytes are known reads as their list. -/
theorem readBytes_eq_map_range {m : List Host.Cell} {i n : Nat} {b : Nat → Byte} (hn : i + n ≤ carrySize)
    (hb : ∀ k < n, Memory.get? m (i + k) = some (b k)) : readBytes m i n = .ok ((List.range n).map b) :=
  readBytes_eq_ok.mpr ⟨by simp, fun k hk => ⟨by omega, by simp [hb k hk, hk]⟩⟩

theorem leNat_map_range (b : Nat → Byte) (n : Nat) :
    leNat ((List.range n).map b) = ∑ k ∈ Finset.range n, (b k).toNat * 256 ^ k := by
  induction n with
  | zero => rfl
  | succ n ih =>
    rw [List.range_succ, List.map_append, leNat_append, ih, Finset.sum_range_succ]
    simp [leNat, Nat.mul_comm]

/-- Settles O28: the bytes read are the list of the `b k`, whose little-endian number fits the word. -/
theorem memReadIsTheLittleEndianSum : Obligations.MemReadIsTheLittleEndianSum := by
  intro m i n b hn hb
  have hlen : ((List.range n.bytes).map b).length = n.bytes := by simp
  have hval : (leWord ((List.range n.bytes).map b)).toNat = leNat ((List.range n.bytes).map b) :=
    leWord_toNat (hlen.trans_le n.bytes_le_eight)
  refine ⟨_, memRead_eq_ok.mpr ⟨_, readBytes_eq_map_range hn hb, rfl⟩, ?_, ?_⟩
  · rw [hval, leNat_map_range]
  · calc (leWord ((List.range n.bytes).map b)).toNat
        = leNat ((List.range n.bytes).map b) := hval
      _ < 256 ^ n.bytes := by simpa only [hlen] using leNat_lt ((List.range n.bytes).map b)
      _ = 2 ^ (8 * n.bytes) := (Nat.pow_mul 2 8 n.bytes).symm

end Sys2Proof.Machine
end

section
/-! The lines of MIX32 (R96, R97), and INIT (R95, R132). -/

namespace Sys2Proof.Machine

/-- Settles O33: each word of `mix32` is its line, the C and D lines with the A and B that `mix32` answers. -/
theorem mixBlockLines : Obligations.MixBlockLines := by
  intro w0 w1 w2 w3 h
  exact ⟨rfl, rfl, rfl, rfl⟩

/-- Settles O40: exec's arm is `execInit`, which checks no phase and whose state words are SEEDINIT's. -/
theorem initCompletes : Obligations.InitCompletes := by
  intro seed s
  calc exec (.init seed) s
      = execInit seed s := rfl
    _ = .next { s with hash := seedInit seed, bytes := 0, phase := .active } := rfl
    _ = _ := by rw [seedInit]

end Sys2Proof.Machine
end

section
/-! Byte lists absorbed into the state words and CARRY: PUSH's loop one byte at a time, and the reference UPDATE by whole
blocks, both leave the words and the valid bytes of CARRY that the whole list determines (R25, R133, R135). -/

namespace Sys2Proof.Machine

/-- The state has taken in the byte list `m` from the state words `h` on: each whole block of `m` is mixed, and CARRY begins
with the bytes after the last whole block. -/
structure Absorbs (h : HashState) (m : List Byte) (s : State) : Prop where
  hash : s.hash = mixBlocks m (m.length / 32) h
  carry : ∀ i < m.length % 32, Memory.get? s.carry i = m[32 * (m.length / 32) + i]?

theorem holds_iff_absorbs {seed : Word} {m : List Byte} {s : State} :
    Holds seed m s ↔ s.phase = .active ∧ s.bytes.toNat = m.length ∧ Absorbs (seedInit seed) m s := by
  have hcut : m.length - m.length % 32 = 32 * (m.length / 32) := by omega
  constructor
  · rintro ⟨hphase, hhash, hbytes, hcarry⟩
    exact ⟨hphase, hbytes, hhash, hcut ▸ hcarry⟩
  · rintro ⟨hphase, hbytes, hhash, hcarry⟩
    exact ⟨hphase, hhash, hbytes, hcut ▸ hcarry⟩

/-- With no byte after the last block, the state words are all there is to say. -/
theorem absorbs_of_whole_blocks {h : HashState} {m : List Byte} {s : State} {k : Nat} (hm : m.length = 32 * k)
    (hs : s.hash = mixBlocks m k h) : Absorbs h m s :=
  ⟨by rw [hs, hm, Nat.mul_div_cancel_left k (by decide)], fun i hi => by omega⟩

/-- Less than a block is all in CARRY. -/
theorem absorbs_of_short {h : HashState} {m : List Byte} {s : State} (hm : m.length < 32) (hs : s.hash = h)
    (hc : ∀ i < m.length, Memory.get? s.carry i = m[i]?) : Absorbs h m s := by
  have hdiv : m.length / 32 = 0 := by omega
  refine ⟨by rw [hdiv, hs]; rfl, fun i hi => ?_⟩
  rw [hdiv, Nat.mul_zero, Nat.zero_add]
  exact hc i (by omega)

/-- A state has taken in the valid bytes of CARRY from the state words it holds. -/
theorem absorbs_of_valid_bytes {s : State} {pre : List Byte} (h : readBytes s.carry 0 s.fill = .ok pre) :
    pre.length = s.fill ∧ Absorbs s.hash pre s := by
  obtain ⟨hlen, hget⟩ := readBytes_eq_ok.mp h
  have hfill := fill_lt s
  exact ⟨hlen, absorbs_of_short (by omega) rfl fun i hi => by simpa using (hget i (by omega)).2⟩

/-- The tail FINAL reads is what follows the last whole block. -/
theorem readBytes_of_absorbs {h : HashState} {m : List Byte} {s : State} (hs : Absorbs h m s) :
    readBytes s.carry 0 (m.length % 32) = .ok (residue m) := by
  refine readBytes_eq_ok.mpr ⟨by simp only [residue, List.length_drop]; omega, fun i hi =>
    ⟨by rw [Nat.zero_add]; exact hi.trans (Nat.mod_lt _ (by decide)), ?_⟩⟩
  rw [Nat.zero_add, hs.carry i hi, residue, List.getElem?_drop]

/-- Storing bytes after the valid ones extends what CARRY holds of the list. -/
theorem writeBytes_of_absorbs {h : HashState} {m : List Byte} {s : State} (hs : Absorbs h m s) {d : List Byte}
    (hd : m.length % 32 + d.length ≤ 32) :
    ∃ c, writeBytes s.carry (m.length % 32) d = .ok c ∧
      ∀ i < m.length % 32 + d.length, Memory.get? c i = (m ++ d)[32 * (m.length / 32) + i]? := by
  obtain ⟨c, hc, hget, -⟩ := writeBytes_spec (m := s.carry) hd
  refine ⟨c, hc, fun i hi => ?_⟩
  rw [hget i]
  by_cases hlow : i < m.length % 32
  · rw [if_neg (by omega), hs.carry i hlow, List.getElem?_append_left (by omega)]
  · rw [if_pos (by omega), List.getElem?_append_right (by omega)]
    congr 1
    omega

/-- MIX32 from a full CARRY mixes the list's last block. -/
theorem mixCarry_of_last_block {h : HashState} {m : List Byte} {s : State} {k : Nat} (hm : m.length = 32 * (k + 1))
    (hh : s.hash = mixBlocks m k h) (hc : ∀ i < 32, Memory.get? s.carry i = m[32 * k + i]?) :
    mixCarry s = .ok { s with hash := mixBlocks m (k + 1) h } := by
  have hblock : readBytes s.carry 0 32 = .ok (m.drop (32 * k)) :=
    readBytes_eq_ok.mpr ⟨by rw [List.length_drop]; omega, fun i hi =>
      ⟨by rwa [Nat.zero_add], by rw [Nat.zero_add, hc i hi, List.getElem?_drop]⟩⟩
  rw [mixCarry_of_block hblock, mixBlock_drop, hh]
  rfl

/-! ### PUSH -/

theorem pushByte_absorbs {h : HashState} {m : List Byte} {s : State} (hs : Absorbs h m s)
    (hf : s.fill = m.length % 32) (b : Byte) :
    ∃ t, pushByte b s = .ok t ∧ t.fill = (m ++ [b]).length % 32 ∧ Absorbs h (m ++ [b]) t := by
  have hlt : m.length % 32 < carrySize := Nat.mod_lt _ (by decide)
  obtain ⟨c, hw, hc⟩ := writeBytes_of_absorbs hs (d := [b]) hlt
  simp only [writeBytes, memWrite_ok b hlt, Except.ok.injEq] at hw
  have hfill (h' : HashState) : ({ s with hash := h', carry := c, bytes := s.bytes + 1 } : State).fill =
      (m ++ [b]).length % 32 := by
    refine (fill_succ { s with hash := h' } c).trans ?_
    simp only [State.fill, List.length_append, List.length_singleton] at hf ⊢
    omega
  have hmix : mixBlocks (m ++ [b]) (m.length / 32) h = s.hash := by
    rw [mixBlocks_append [b] (Nat.mul_div_le _ _), hs.hash]
  rw [pushByte_eq, hf]
  by_cases hlast : m.length % 32 = 31
  · have hlen : (m ++ [b]).length = 32 * (m.length / 32 + 1) := by
      simp only [List.length_append, List.length_singleton]
      omega
    rw [hlast] at hw hc
    rw [if_pos hlast, hw, mixCarry_of_last_block (s := { s with carry := c, bytes := s.bytes + 1 }) hlen hmix.symm hc]
    exact ⟨_, rfl, hfill _, absorbs_of_whole_blocks hlen rfl⟩
  · have hdiv : (m ++ [b]).length / 32 = m.length / 32 := by
      simp only [List.length_append, List.length_singleton]
      omega
    rw [if_neg hlast, hw]
    refine ⟨_, rfl, hfill _, by rw [hdiv, hmix], fun i hi => ?_⟩
    rw [hdiv]
    refine hc i ?_
    simp only [List.length_append, List.length_singleton] at hi ⊢
    omega

theorem pushBytes_absorbs {h : HashState} {m : List Byte} {s : State} (hs : Absorbs h m s)
    (hf : s.fill = m.length % 32) (d : List Byte) :
    ∃ t, pushBytes d s = .ok t ∧ t.fill = (m ++ d).length % 32 ∧ Absorbs h (m ++ d) t := by
  induction d generalizing m s with
  | nil => exact ⟨s, rfl, by rwa [List.append_nil], by rwa [List.append_nil]⟩
  | cons b d ih =>
    obtain ⟨t, hb, hft, ht⟩ := pushByte_absorbs hs hf b
    obtain ⟨u, hu, hd⟩ := ih ht hft
    exact ⟨u, by rw [pushBytes, hb]; exact hu, by rwa [List.append_cons]⟩

/-! ### UPDATE -/

theorem updateBulk_absorbs {h : HashState} {m : List Byte} {s : State} (hs : Absorbs h m s) (hm : m.length % 32 = 0)
    (n : Nat) (c : List Byte) :
    ∃ u, updateBulk n c s = .ok u ∧ Absorbs h (m ++ c) u ∧
      u = { s with hash := u.hash, carry := u.carry, bytes := s.bytes + BitVec.ofNat 64 n } := by
  have hrest : (c.drop (32 * (c.length / 32))).length = c.length % 32 := by rw [List.length_drop]; omega
  obtain ⟨m', hw, hget, -⟩ := writeBytes_spec (m := s.carry) (i := 0) (bs := c.drop (32 * (c.length / 32)))
    (by rw [hrest, Nat.zero_add]; exact (Nat.mod_lt _ (by decide)).le)
  have hdiv : (m ++ c).length / 32 = m.length / 32 + c.length / 32 := by rw [List.length_append]; omega
  have hmod : (m ++ c).length % 32 = c.length % 32 := by rw [List.length_append]; omega
  have hcut : 32 * (m.length / 32) = m.length := by omega
  refine ⟨_, by rw [updateBulk, hw], ⟨?_, fun i hi => ?_⟩, rfl⟩
  · rw [hdiv, mixBlocks_add, mixBlocks_append c hcut.le, hcut, List.drop_left, hs.hash]
  · rw [hmod] at hi
    rw [hget i, if_pos (by omega), List.getElem?_drop, hdiv, Nat.mul_add, hcut, Nat.add_assoc,
      List.getElem?_append_right (Nat.le_add_right _ _)]
    congr 1
    omega

/-- UPDATE in ACTIVE takes its chunk in after the valid bytes of CARRY. -/
theorem update_absorbs {s : State} {pre : List Byte} (hpre : readBytes s.carry 0 s.fill = .ok pre) (c : List Byte) :
    ∃ u, update c s = .ok u ∧ Absorbs s.hash (pre ++ c) u ∧
      u = { s with hash := u.hash, carry := u.carry, bytes := s.bytes + BitVec.ofNat 64 c.length } := by
  obtain ⟨hlen, hs⟩ := absorbs_of_valid_bytes hpre
  have hfill := fill_lt s
  by_cases hzero : s.fill = 0
  · rw [update, if_pos hzero]
    exact updateBulk_absorbs hs (by omega) c.length c
  · obtain ⟨t, ht⟩ : ∃ t, t = min (32 - s.fill) c.length := ⟨_, rfl⟩
    have hmod : pre.length % 32 = s.fill := by omega
    have hdiv : pre.length / 32 = 0 := by omega
    have htake : (c.take t).length = t := by rw [List.length_take]; omega
    obtain ⟨m, hw, hm⟩ := writeBytes_of_absorbs hs (d := c.take t) (by omega)
    rw [hmod] at hw
    rw [hmod, hdiv, htake] at hm
    simp only [update, if_neg hzero, ← ht, hw]
    by_cases hshort : s.fill + t < 32
    · have hall : c.take t = c := List.take_of_length_le (by omega)
      rw [if_pos hshort]
      rw [hall] at hm htake
      refine ⟨_, rfl, absorbs_of_short ?_ rfl fun i hi => ?_, rfl⟩
      · rw [List.length_append]; omega
      · rw [List.length_append] at hi
        simpa using hm i (by omega)
    · have hfull : (pre ++ c.take t).length = 32 * (0 + 1) := by rw [List.length_append]; omega
      have hmixed : Absorbs s.hash (pre ++ c.take t)
          { s with hash := mixBlocks (pre ++ c.take t) (0 + 1) s.hash, carry := m } :=
        absorbs_of_whole_blocks hfull rfl
      obtain ⟨u, hu, habs, hframe⟩ := updateBulk_absorbs hmixed (by omega) c.length (c.drop t)
      rw [List.append_assoc, List.take_append_drop] at habs
      rw [if_neg hshort, mixCarry_of_last_block (h := s.hash) (s := { s with carry := m }) hfull rfl fun i hi =>
        hm i (by omega)]
      exact ⟨u, hu, habs, hframe⟩

end Sys2Proof.Machine
end

section
/-! Runs of NOP and PUSH, which are one loop of PUSH over all their data bytes, and what FINAL leaves after them (R134 to
R138). -/

namespace Sys2Proof.Machine

theorem execAll_singleton (i : Instr) (s : State) : execAll [i] s = exec i s := by
  rw [execAll]
  cases exec i s <;> rfl

theorem execAll_append_of_next {is : List Instr} {s t : State} (h : execAll is s = .next t) (js : List Instr) :
    execAll (is ++ js) s = execAll js t := by
  induction is generalizing s with
  | nil => cases h; rfl
  | cons i is ih =>
    simp only [execAll, List.cons_append] at h ⊢
    cases hi : exec i s with
    | next s' =>
      rw [hi] at h
      exact ih h
    | fault f => simp [hi] at h
    | refused r => simp [hi] at h

theorem pushBytes_phase_bytes {d : List Byte} {s t : State} (h : pushBytes d s = .ok t) :
    t.phase = s.phase ∧ t.bytes = s.bytes + BitVec.ofNat 64 d.length := by
  rw [pushBytes_frame h]
  exact ⟨rfl, rfl⟩

/-- NOP and PUSH commands in ACTIVE do what one loop of PUSH does over their data bytes together, wherever the cuts are. -/
theorem execAll_feeds {cs : List Instr} {s : State} (hcs : ∀ i ∈ cs, Feeds i) (hp : s.phase = .active)
    (hn : s.bytes.toNat + (dataOf cs).length < 2 ^ 64) : execAll cs s = settle (pushBytes (dataOf cs) s) := by
  induction cs generalizing s with
  | nil => rfl
  | cons i cs ih =>
    have hi := hcs i List.mem_cons_self
    have hrest : ∀ j ∈ cs, Feeds j := fun j hj => hcs j (List.mem_cons_of_mem i hj)
    cases i with
    | nop => exact ih hrest hp hn
    | push d =>
      simp only [dataOf, List.length_append] at hn
      rw [execAll, exec_push, execPush_of_accepted hi hp (by omega), dataOf, pushBytes_append]
      cases hd : pushBytes d s with
      | error f => rfl
      | ok t =>
        obtain ⟨hphase, hbytes⟩ := pushBytes_phase_bytes hd
        refine ih hrest (hphase.trans hp) ?_
        rw [hbytes, BitVec.toNat_add, BitVec.toNat_ofNat]
        omega
    | init seed => exact absurd hi id
    | final => exact absurd hi id

/-- Every cut of a chunk into beats is a list of PUSH commands with the chunk's bytes. -/
theorem dataOf_map_push (ds : List (List Byte)) : dataOf (ds.map .push) = ds.flatten := by
  induction ds with
  | nil => rfl
  | cons d ds ih => rw [List.map_cons, dataOf, ih, List.flatten_cons]

theorem feeds_map_push {ds : List (List Byte)} (hd : ∀ d ∈ ds, d.length ≤ 8) :
    ∀ i ∈ ds.map Instr.push, Feeds i := by
  intro i hi
  obtain ⟨d, hmem, rfl⟩ := List.mem_map.mp hi
  exact hd d hmem

theorem execAll_map_push {ds : List (List Byte)} {s : State} (hds : ∀ d ∈ ds, d.length ≤ 8) (hp : s.phase = .active)
    (hn : s.bytes.toNat + ds.flatten.length < 2 ^ 64) :
    execAll (ds.map .push) s = settle (pushBytes ds.flatten s) := by
  rw [execAll_feeds (feeds_map_push hds) hp (by rwa [dataOf_map_push]), dataOf_map_push]

/-! ### From INIT to FINAL -/

theorem init_holds (seed : Word) (s : State) :
    Holds seed [] { s with hash := seedInit seed, bytes := 0, phase := .active } :=
  holds_iff_absorbs.mpr ⟨rfl, rfl, absorbs_of_whole_blocks (k := 0) rfl rfl⟩

/-- After INIT and commands that feed, the engine holds their data. -/
theorem execAll_init_feeds_holds (seed : Word) {cs : List Instr} (s : State) (hcs : ∀ i ∈ cs, Feeds i)
    (hn : (dataOf cs).length < 2 ^ 64) : ∃ u, execAll (.init seed :: cs) s = .next u ∧ Holds seed (dataOf cs) u := by
  obtain ⟨hphase, hbytes, habs⟩ := holds_iff_absorbs.mp (init_holds seed s)
  obtain ⟨u, hu, -, habs'⟩ := pushBytes_absorbs habs (by rw [State.fill, hbytes]) (dataOf cs)
  obtain ⟨hphase', hbytes'⟩ := pushBytes_phase_bytes hu
  have hlen : u.bytes.toNat = (dataOf cs).length := by
    rw [hbytes']
    simpa using Nat.mod_eq_of_lt hn
  refine ⟨u, ?_, holds_iff_absorbs.mpr ⟨hphase'.trans hphase, hlen, habs'⟩⟩
  have hrun := execAll_feeds hcs hphase (by rw [hbytes, List.length_nil]; omega)
  rw [hu] at hrun
  exact hrun

/-- FINAL of an engine that holds a message leaves the words whose bytes are the message's hash. -/
theorem execFinal_of_holds {seed : Word} {m : List Byte} {s : State} (h : Holds seed m s) :
    execFinal s = .next { s with
      hash := finalHash (decide (32 ≤ m.length)) (residue m) (absorb seed m), bytes := 0, phase := .finalized } := by
  obtain ⟨hphase, hbytes, habs⟩ := holds_iff_absorbs.mp h
  have hread : readBytes s.carry 0 s.fill = .ok (residue m) := by
    rw [State.fill, hbytes]
    exact readBytes_of_absorbs habs
  rw [execFinal, if_neg (not_not.mpr hphase), hread, State.bulk, hbytes, h.hash]

theorem execAll_init_feeds_final (seed : Word) {cs : List Instr} (s : State) (hcs : ∀ i ∈ cs, Feeds i)
    (hn : (dataOf cs).length < 2 ^ 64) :
    ∃ t, execAll (.init seed :: (cs ++ [.final])) s = .next t ∧ t.phase = .finalized ∧ t.bytes = 0 ∧
      digestBytes t = some (mh128 seed (dataOf cs)) := by
  obtain ⟨u, hu, hholds⟩ := execAll_init_feeds_holds seed s hcs hn
  have hrun := execAll_append_of_next hu [.final]
  rw [execAll_singleton, exec_final, execFinal_of_holds hholds] at hrun
  exact ⟨_, hrun, rfl, rfl, rfl⟩

/-! ### The beats of UPDATE -/

theorem flatten_beats (c : List Byte) : (beats c).flatten = c := by
  have hfront (n : Nat) : ((List.range n).map fun k => (c.drop (8 * k)).take 8).flatten = c.take (8 * n) := by
    induction n with
    | zero => rfl
    | succ n ih =>
      rw [List.range_succ, List.map_append, List.flatten_append, ih, Nat.mul_succ, List.take_add]
      simp
  rw [beats, hfront, List.take_of_length_le (by omega)]

theorem length_le_of_mem_beats {c d : List Byte} (hd : d ∈ beats c) : d.length ≤ 8 := by
  obtain ⟨k, -, rfl⟩ := List.mem_map.mp hd
  exact List.length_take_le 8 _

/-! ### Empty input -/

theorem finalHash_of_no_byte (h : HashState) : finalHash false [] h = aval h := by
  simp [finalHash, tail, tailLine]

/-! ### The statements -/

/-- Settles O48: the commands between INIT and FINAL are one loop of PUSH, after which the engine holds their data. -/
theorem chunkingEquivalence : Obligations.ChunkingEquivalence := by
  intro seed cs s hcs hn
  obtain ⟨t, ht, -, -, hdigest⟩ := execAll_init_feeds_final seed s hcs hn
  exact ⟨execAll_init_feeds_holds seed s hcs hn, t, ht, hdigest⟩

/-- Settles O50: both take the chunk in after the same valid bytes of CARRY, so what either leaves is fixed by the bytes. -/
theorem beatsAgreeWithUpdate : Obligations.BeatsAgreeWithUpdate := by
  rintro s _ ds hp hread hn rfl hds
  obtain ⟨pre, hpre⟩ := readBytes_ok_of_readable (m := s.carry) (i := 0) (n := s.fill)
    (by rw [Nat.zero_add]; exact (fill_lt s).le) (by simpa [CarryReadable] using hread)
  obtain ⟨hlen, hs⟩ := absorbs_of_valid_bytes hpre
  obtain ⟨t, ht, hfill, htabs⟩ := pushBytes_absorbs hs (by rw [hlen, Nat.mod_eq_of_lt (fill_lt s)]) ds.flatten
  obtain ⟨u, hu, huabs, huframe⟩ := update_absorbs hpre ds.flatten
  refine ⟨t, u, by rw [execAll_map_push hds hp hn, ht]; rfl, hu, fun i hi => ?_, ?_⟩
  · rw [hfill] at hi
    rw [readByte, readByte, htabs.carry i hi, huabs.carry i hi]
  · rw [huframe, pushBytes_frame ht, htabs.hash, huabs.hash]

/-- Settles O51: HASH is INIT, the beats of its bytes, and FINAL. -/
theorem hashLeavesTheDigest : Obligations.HashLeavesTheDigest := by
  intro seed m s hm
  have hdata : dataOf (expandUpdate m) = m := by rw [expandUpdate, dataOf_map_push, flatten_beats]
  have hfeeds : ∀ i ∈ expandUpdate m, Feeds i := feeds_map_push fun d hd => length_le_of_mem_beats hd
  have h := execAll_init_feeds_final seed s hfeeds (hdata.symm ▸ hm)
  rwa [hdata] at h

/-- Settles O52: the empty beats are a loop of PUSH over no byte, and FINAL finds neither a block nor a tail. -/
theorem emptyInputRunsAvalOnly : Obligations.EmptyInputRunsAvalOnly := by
  intro seed k s
  have hfinal : finalHash (decide (32 ≤ ([] : List Byte).length)) (residue []) (absorb seed []) =
      aval (seedInit seed) := finalHash_of_no_byte (seedInit seed)
  refine ⟨?_, by rw [mh128, hfinal]⟩
  have hbeats := execAll_map_push (ds := List.replicate k [])
    (s := { s with hash := seedInit seed, bytes := 0, phase := .active })
    (fun d hd => by rw [List.eq_of_mem_replicate hd]; exact Nat.zero_le 8) rfl
    (by rw [List.flatten_replicate_nil]; exact Nat.two_pow_pos 64)
  rw [List.map_replicate, List.flatten_replicate_nil] at hbeats
  calc execAll (.init seed :: (List.replicate k (.push []) ++ [.final])) s
      = execAll (List.replicate k (.push []) ++ [.final])
          { s with hash := seedInit seed, bytes := 0, phase := .active } := rfl
    _ = execAll [.final] { s with hash := seedInit seed, bytes := 0, phase := .active } :=
        execAll_append_of_next hbeats [.final]
    _ = .next { s with hash := aval (seedInit seed), bytes := 0, phase := .finalized } := by
        rw [execAll_singleton, exec_final, execFinal_of_holds (init_holds seed s), hfinal]

end Sys2Proof.Machine
end

section
/-! The engine after FINAL (R140). -/

namespace Sys2Proof.Machine

/-- A word that decodes fails neither check of the decoder. -/
theorem legal_of_decode_ok {w : CmdWord} {i : Instr} (h : decode w = .ok i) :
    (opField w).toNat < 4 ∧ ¬ IllegalFormat w := by
  constructor
  · exact Nat.lt_of_not_le fun hop => by simp [decode_of_reserved hop] at h
  · exact fun hf => by simp [decode_of_illegalFormat hf] at h

/-- The words of opcode 0 and 1 are NOP and INIT, so a PUSH or a FINAL has opcode 2 or 3. -/
theorem opField_of_decode_push_or_final {w : CmdWord} (h : decode w = .ok .final ∨ ∃ d, decode w = .ok (.push d)) :
    opField w = 2 ∨ opField w = 3 := by
  obtain ⟨i, hi, hnop, hinit⟩ : ∃ i, decode w = .ok i ∧ i ≠ .nop ∧ ∀ seed, i ≠ .init seed := by
    rcases h with h | ⟨d, h⟩ <;> exact ⟨_, h, by simp, by simp⟩
  obtain ⟨h4, hf⟩ := legal_of_decode_ok hi
  have hdec := hi.symm.trans (decode_of_legal h4 hf)
  by_cases h0 : opField w = 0
  · rw [if_pos h0, Except.ok.injEq] at hdec
    exact absurd hdec hnop
  by_cases h1 : opField w = 1
  · rw [if_neg h0, if_pos h1, Except.ok.injEq] at hdec
    exact absurd hdec (hinit _)
  · bv_omega

theorem rejected_seq_of_push_or_final {w : CmdWord} {s : State} (hp : s.phase ≠ .active)
    (h : decode w = .ok .final ∨ ∃ d, decode w = .ok (.push d)) : Rejected w s .seq := by
  obtain ⟨i, hi⟩ : ∃ i, decode w = .ok i := by
    rcases h with h | ⟨d, h⟩ <;> exact ⟨_, h⟩
  exact .seq (legal_of_decode_ok hi).2 (opField_of_decode_push_or_final h) hp

/-- Outside ACTIVE exactly NOP and INIT pass the checks. -/
theorem accepted_iff_of_not_active {w : CmdWord} {s : State} (hp : s.phase ≠ .active) :
    Accepted w s ↔ decode w = .ok .nop ∨ ∃ seed, decode w = .ok (.init seed) := by
  constructor
  · intro ha
    rcases runWord_of_accepted ha with ⟨hd, -⟩ | ⟨seed, hd, -⟩ | ⟨d, -, hactive, -⟩ | ⟨-, hactive, -⟩
    · exact .inl hd
    · exact .inr ⟨seed, hd⟩
    · exact absurd hactive hp
    · exact absurd hactive hp
  · intro h
    obtain ⟨i, hi, hpush, hfinal⟩ : ∃ i, decode w = .ok i ∧ (∀ d, i ≠ .push d) ∧ i ≠ .final := by
      rcases h with h | ⟨seed, h⟩ <;> exact ⟨_, h, by simp, by simp⟩
    obtain ⟨h4, hf⟩ := legal_of_decode_ok hi
    have hop2 : opField w ≠ 2 := fun h2 => hpush _ (Except.ok.inj (hi.symm.trans (decode_of_legal_push hf h2)))
    have hop3 : opField w ≠ 3 := fun h3 => hfinal (Except.ok.inj (hi.symm.trans (decode_of_legal_final hf h3)))
    exact accepted_iff.mpr ⟨h4, hf, fun h => absurd h (not_or.mpr ⟨hop2, hop3⟩), fun h => absurd h hop2⟩

/-- Settles O23: outside ACTIVE a word is NOP, INIT or rejected, and a reject leaves PHASE. -/
theorem finalizedAcceptsOnlyNopAndInit : Obligations.FinalizedAcceptsOnlyNopAndInit := by
  refine ⟨fun s t hp h => by rw [execFinal_frame hp h], fun s w hphase => ?_⟩
  have hp : s.phase ≠ .active := by rw [hphase]; decide
  refine ⟨accepted_iff_of_not_active hp, fun h => ?_, fun hinit => ?_⟩
  · have hr := rejected_seq_of_push_or_final hp h
    exact ⟨hr, runWord_of_rejected hr⟩
  · by_cases ha : Accepted w s
    · rcases (accepted_iff_of_not_active hp).mp ha with hd | ⟨seed, hd⟩
      · exact ⟨s, runWord_of_decode_ok hd s, hphase⟩
      · exact absurd hd (hinit seed)
    · obtain ⟨c, hc⟩ := not_forall_not.mp ha
      exact ⟨_, runWord_of_rejected hc, hphase⟩

end Sys2Proof.Machine
end

section
/-! What a reject writes, and the one cause it reports (R162, R163, R168). -/

namespace Sys2Proof.Machine

/-- A word of malformed fields has one of the opcodes 0 to 3, so ILLOP and ILLFMT exclude each other. -/
theorem opField_lt_of_illegalFormat {w : CmdWord} (h : IllegalFormat w) : (opField w).toNat < 4 := by
  rcases h with ⟨h, -⟩ | ⟨h, -⟩ | ⟨h, -⟩ | ⟨h, -⟩ <;> rw [h] <;> decide

theorem opField_lt_of_push_or_final {w : CmdWord} (h : opField w = 2 ∨ opField w = 3) : (opField w).toNat < 4 := by
  rcases h with h | h <;> rw [h] <;> decide

/-- The cause of a reject is the first check that fails, in R168's order. -/
theorem cause_of_rejected {w : CmdWord} {s : State} {c : Cause} [Decidable (IllegalFormat w)] (h : Rejected w s c) :
    c = if 4 ≤ (opField w).toNat then .illop
      else if IllegalFormat w then .illfmt
      else if s.phase ≠ .active then .seq
      else .lenovf := by
  cases h with
  | illop h => rw [if_pos h]
  | illfmt h => rw [if_neg (Nat.not_le.mpr (opField_lt_of_illegalFormat h)), if_pos h]
  | seq hf hop hp => rw [if_neg (Nat.not_le.mpr (opField_lt_of_push_or_final hop)), if_neg hf, if_pos hp]
  | lenovf hf hop hp hn =>
    rw [if_neg (Nat.not_le.mpr (opField_lt_of_push_or_final (.inl hop))), if_neg hf, if_neg (not_not.mpr hp)]

theorem rejected_unique {w : CmdWord} {s : State} {c c' : Cause} (h : Rejected w s c) (h' : Rejected w s c') :
    c = c' := by
  classical exact (cause_of_rejected h).trans (cause_of_rejected h').symm

/-- With no reject before it, a word that runs leaves NONE if it is accepted and its cause if it is rejected (R31). -/
theorem errCode_of_runWord {w : CmdWord} {s t : State} (he : s.err = false) (hc : s.errCode = .none)
    (h : runWord w s = .next t) :
    (Accepted w s ∧ t.errCode = .none) ∨ ∃ c, Rejected w s c ∧ t.errCode = .first c := by
  by_cases ha : Accepted w s
  · exact .inl ⟨ha, (runWord_flags_of_accepted ha h).2.trans hc⟩
  · obtain ⟨c, hr⟩ := not_forall_not.mp ha
    rw [runWord_of_rejected hr] at h
    cases h
    exact .inr ⟨c, hr, by simp [he]⟩

/-- Settles O12: a rejected word is its cause's reject, which writes the two flags. -/
theorem rejectedWordWritesOnlyErr : Obligations.RejectedWordWritesOnlyErr :=
  fun _ _ _ h => runWord_of_rejected h

/-- Settles O13: each check is a cause of `Rejected`, whose reject the word runs, and the cause is unique. -/
theorem rejectReportsOneCause : Obligations.RejectReportsOneCause := by
  intro w s
  refine ⟨fun h => runWord_of_rejected (.illop h), fun h => runWord_of_rejected (.illfmt h),
    fun hf hop hp => runWord_of_rejected (.seq hf hop hp),
    fun hf hop hp hn => runWord_of_rejected (.lenovf hf hop hp hn), fun _ _ => rejected_unique, fun t he hc h => ?_⟩
  rcases errCode_of_runWord he hc h with ⟨ha, ht⟩ | ⟨c, hr, ht⟩
  · exact ⟨fun c => by simp [ht, ha c], by simp [ht, ha]⟩
  · have hcause : ∀ c', c = c' ↔ Rejected w s c' := fun c' => ⟨fun h => h ▸ hr, rejected_unique hr⟩
    exact ⟨fun c' => by simp [ht, hcause], by simpa [ht] using fun ha : Accepted w s => ha c hr⟩

end Sys2Proof.Machine
end

section
/-! The invariant of the engine along a step: a state that meets it is kept from every stop, and keeps it (R25, R31, R34,
R130, R182). -/

namespace Sys2Proof.Machine

/-! ### The loop of PUSH where the valid bytes of CARRY hold values -/

/-- The valid bytes of CARRY, as the list that a read of them answers. -/
theorem readBytes_of_carryReadable {s : State} (h : CarryReadable s.carry s.fill) :
    ∃ pre, readBytes s.carry 0 s.fill = .ok pre :=
  readBytes_ok_of_readable (by rw [Nat.zero_add]; exact (fill_lt s).le) (by simpa [CarryReadable] using h)

/-- The valid bytes of a state that has taken in a byte list are bytes of the list, so they hold values. -/
theorem carryReadable_of_absorbs {h : HashState} {m : List Byte} {s : State} (hs : Absorbs h m s)
    (hf : s.fill = m.length % 32) : CarryReadable s.carry s.fill := by
  intro i hi
  rw [hs.carry i (hf ▸ hi), List.getElem?_eq_getElem (by omega)]
  rfl

/-- PUSH's loop reads no byte without a value if the valid bytes hold values, and leaves them so. -/
theorem pushBytes_of_carryReadable {s : State} (h : CarryReadable s.carry s.fill) (d : List Byte) :
    ∃ t, pushBytes d s = .ok t ∧ CarryReadable t.carry t.fill := by
  obtain ⟨pre, hpre⟩ := readBytes_of_carryReadable h
  obtain ⟨hlen, hs⟩ := absorbs_of_valid_bytes hpre
  obtain ⟨t, ht, hfill, habs⟩ := pushBytes_absorbs hs (by rw [hlen, Nat.mod_eq_of_lt (fill_lt s)]) d
  exact ⟨t, ht, carryReadable_of_absorbs habs hfill⟩

/-- One byte of PUSH is stored below 32, so the canonical form of CARRY is kept. -/
theorem pushByte_wf {b : Byte} {s t : State} (hs : Memory.wf s.carry = true) (h : pushByte b s = .ok t) :
    Memory.wf t.carry = true := by
  rw [(pushByte_frame h).1]
  exact wf_set b hs (fill_lt s)

theorem pushBytes_wf {d : List Byte} {s t : State} (hs : Memory.wf s.carry = true) (h : pushBytes d s = .ok t) :
    Memory.wf t.carry = true := by
  induction d generalizing s with
  | nil => cases h; exact hs
  | cons b d ih =>
    rw [pushBytes] at h
    cases hb : pushByte b s with
    | error f => simp [hb] at h
    | ok s' =>
      rw [hb] at h
      exact ih (pushByte_wf hs hb) h

/-! ### The invariant -/

/-- The invariant speaks of CARRY, BYTES, PHASE and the flags only. -/
theorem engineInv_takeCommand {s : State} (h : EngineInv s) : EngineInv (takeCommand s) :=
  ⟨h.carryForm, h.fillReadable, h.bytesZero, h.errCodeNone⟩

theorem engineInv_dropDrive {s : State} (h : EngineInv s) : EngineInv (dropDrive s) :=
  ⟨h.carryForm, h.fillReadable, h.bytesZero, h.errCodeNone⟩

theorem engineInv_resetEngine (s : State) : EngineInv (resetEngine s) :=
  ⟨wf_nil, fun hp => by simp at hp, fun _ => rfl, by simp⟩

theorem engineInv_reject (c : Cause) {s : State} (h : EngineInv s) : EngineInv (reject c s) := by
  refine ⟨h.carryForm, h.fillReadable, h.bytesZero, ?_⟩
  cases he : s.err with
  | false => simp [he]
  | true => simpa [he] using h.errCodeNone

theorem execPush_of_engineInv {s : State} (h : EngineInv s) (d : List Byte) :
    ∃ t, execPush d s = .next t ∧ EngineInv t := by
  rcases execPush_cases d s with ⟨-, he⟩ | ⟨-, -, he⟩ | ⟨-, -, -, he⟩ | ⟨-, hp, -, he⟩
  · exact ⟨_, he, engineInv_reject _ h⟩
  · exact ⟨_, he, engineInv_reject _ h⟩
  · exact ⟨_, he, engineInv_reject _ h⟩
  · obtain ⟨t, ht, hread⟩ := pushBytes_of_carryReadable (h.fillReadable hp) d
    have hwf := pushBytes_wf h.carryForm ht
    have hphase : t.phase = .active := (pushBytes_phase_bytes ht).1.trans hp
    refine ⟨t, by rw [he, ht, settle], hwf, fun _ => hread, fun hne => absurd hphase hne, ?_⟩
    rw [pushBytes_frame ht]
    exact h.errCodeNone

theorem execFinal_of_engineInv {s : State} (h : EngineInv s) : ∃ t, execFinal s = .next t ∧ EngineInv t := by
  rcases execFinal_cases s with ⟨-, he⟩ | ⟨hp, f, hf, -⟩ | ⟨-, b, -, he⟩
  · exact ⟨_, he, engineInv_reject _ h⟩
  · obtain ⟨pre, hpre⟩ := readBytes_of_carryReadable (h.fillReadable hp)
    rw [hpre] at hf
    cases hf
  · exact ⟨_, he, h.carryForm, fun hp => by simp at hp, fun _ => rfl, h.errCodeNone⟩

/-- Every command answers a next state from a state that meets the invariant, and keeps it. -/
theorem exec_of_engineInv {s : State} (h : EngineInv s) (i : Instr) : ∃ t, exec i s = .next t ∧ EngineInv t := by
  cases i with
  | nop => exact ⟨s, rfl, h⟩
  | init seed => exact ⟨_, rfl, h.carryForm, fun _ i hi => absurd hi (Nat.not_lt_zero i), fun hp => absurd rfl hp,
      h.errCodeNone⟩
  | push d => exact execPush_of_engineInv h d
  | final => exact execFinal_of_engineInv h

/-- So does every step. -/
theorem step_of_engineInv {s : State} (h : EngineInv s) : ∃ t, step s = .next t ∧ EngineInv t := by
  rcases step_cases s with ⟨-, hs⟩ | ⟨-, hs⟩ | ⟨-, hs⟩ | ⟨w, -, hs⟩
  · exact ⟨s, hs, h⟩
  · exact ⟨_, hs, engineInv_resetEngine _⟩
  · exact ⟨_, hs, engineInv_dropDrive h⟩
  · have htaken := engineInv_takeCommand h
    rcases runWord_cases w (takeCommand s) with ⟨i, -, hr⟩ | ⟨e, -, hr⟩ <;> rw [hs, hr]
    · exact exec_of_engineInv htaken i
    · exact ⟨_, rfl, engineInv_reject _ htaken⟩

/-! ### The statements -/

/-- Settles O25: after reset nothing is written, BYTES is 0 and PHASE is IDLE. -/
theorem resetMeetsTheInvariant : Obligations.ResetMeetsTheInvariant :=
  ⟨reset_carry_wf, fun h => by simp [State.reset] at h, fun _ => rfl, by simp [State.reset]⟩

/-- Settles O26: the one next state of a step from the invariant is the one that `step_of_engineInv` gives. -/
theorem stepKeepsTheInvariant : Obligations.StepKeepsTheInvariant := by
  intro s t hs ht
  obtain ⟨u, hu, hinv⟩ := step_of_engineInv hs
  rw [ht] at hu
  cases hu
  exact hinv

/-- Settles O27: a step from the invariant answers a next state. -/
theorem invariantStepNeverStops : Obligations.InvariantStepNeverStops := by
  intro s hs
  obtain ⟨t, ht, -⟩ := step_of_engineInv hs
  exact ⟨t, ht⟩

/-- Settles O47: PUSH in ACTIVE is its loop, which takes its bytes in after those the engine holds. -/
theorem pushExtendsTheMessage : Obligations.PushExtendsTheMessage := by
  intro seed m d s hs hd hn
  obtain ⟨hphase, hbytes, habs⟩ := holds_iff_absorbs.mp hs
  obtain ⟨t, ht, -, habs'⟩ := pushBytes_absorbs habs (by rw [State.fill, hbytes]) d
  obtain ⟨hphase', hbytes'⟩ := pushBytes_phase_bytes ht
  refine ⟨t, ?_, holds_iff_absorbs.mpr ⟨hphase'.trans hphase, ?_, habs'⟩⟩
  · rw [exec_push, execPush_of_accepted hd hphase (by omega), ht, settle]
  · rw [hbytes', BitVec.toNat_add, BitVec.toNat_ofNat, hbytes, List.length_append]
    omega

end Sys2Proof.Machine
end

section
/-! Reads and writes of CARRY: what a run of bytes answers where one of them holds no value, a byte stored and read back, and
the widths beside each other (R52 to R58, R182). -/

namespace Sys2Proof.Machine

/-! ### Runs of bytes -/

theorem readBytes_succ (m : List Host.Cell) (i n : Nat) :
    readBytes m i (n + 1) = (readByte m i).bind fun b => (readBytes m (i + 1) n).map (b :: ·) := by
  rw [readBytes]
  cases readByte m i with
  | error f => rfl
  | ok b => cases readBytes m (i + 1) n <;> rfl

/-- A run of CARRY is read as its front and then its rest. -/
theorem readBytes_add (m : List Host.Cell) (i a b : Nat) :
    readBytes m i (a + b) = (readBytes m i a).bind fun bs => (readBytes m (i + a) b).map (bs ++ ·) := by
  induction a generalizing i with
  | zero =>
    rw [Nat.zero_add, Nat.add_zero]
    cases h : readBytes m i b <;> simp [readBytes, Except.bind, Except.map]
  | succ a ih =>
    rw [show a + 1 + b = a + b + 1 by omega, readBytes_succ, readBytes_succ, ih,
      show i + 1 + a = i + (a + 1) by omega]
    cases readByte m i with
    | error f => rfl
    | ok c =>
      cases readBytes m (i + 1) a with
      | error f => rfl
      | ok bs => cases readBytes m (i + (a + 1)) b <;> rfl

theorem readByte_of_no_value {m : List Host.Cell} {i : Nat} (hi : i < carrySize) (h : Memory.get? m i = none) :
    readByte m i = .error (.carryNoValue i) := by
  rw [readByte, if_pos hi, h]

/-- A run of bytes stops at the first of them that holds no value. -/
theorem readBytes_of_no_value {m : List Host.Cell} {n i : Nat} (hn : n ≤ carrySize) (hi : i < n)
    (hsome : ∀ j < i, (Memory.get? m j).isSome) (hnone : Memory.get? m i = none) :
    readBytes m 0 n = .error (.carryNoValue i) := by
  obtain ⟨k, rfl⟩ : ∃ k, n = i + (k + 1) := ⟨n - i - 1, by omega⟩
  obtain ⟨bs, hbs⟩ := readBytes_ok_of_readable (m := m) (i := 0) (n := i) (by omega) (by simpa using hsome)
  rw [readBytes_add, hbs, Nat.zero_add, readBytes_succ, readByte_of_no_value (by omega) hnone]
  rfl

theorem memRead_eq_map (m : List Host.Cell) (i : Nat) (n : Width) :
    memRead m i n = (readBytes m i n.bytes).map leWord := by
  rw [memRead]
  cases readBytes m i n.bytes <;> rfl

/-- MIX32 from CARRY is a read of its 32 bytes in order, whose first byte without a value is where it stops. -/
theorem mixCarry_eq (s : State) :
    mixCarry s = (readBytes s.carry 0 32).map fun blk => { s with hash := mixBlock blk 0 s.hash } := by
  cases h : readBytes s.carry 0 32 with
  | ok blk => exact mixCarry_of_block h
  | error f =>
    rw [readBytes_add _ 0 8 24, readBytes_add _ 8 8 16, readBytes_add _ 16 8 8] at h
    simp only [mixCarry, memRead_eq_map, Width.bytes]
    generalize readBytes s.carry 0 8 = r0, readBytes s.carry (0 + 8) 8 = r8, readBytes s.carry (8 + 8) 8 = r16,
      readBytes s.carry (16 + 8) 8 = r24 at h ⊢
    cases r0 with
    | error f0 => cases h; rfl
    | ok w0 =>
      cases r8 with
      | error f8 => cases h; rfl
      | ok w8 =>
        cases r16 with
        | error f16 => cases h; rfl
        | ok w16 =>
          cases r24 with
          | error f24 => cases h; rfl
          | ok w24 => cases h

/-! ### Byte order -/

/-- Eight bytes as a word: the first four, and the last four above them. -/
theorem leWord_append_four {lo hi : List Byte} (hlo : lo.length = 4) (hhi : hi.length = 4) :
    leWord (lo ++ hi) = leWord lo + 0x100000000 * leWord hi := by
  have hmul : (0x100000000 : Word).toNat = 256 ^ 4 := by decide
  apply BitVec.eq_of_toNat_eq
  rw [BitVec.toNat_add, BitVec.toNat_mul, hmul, leWord_toNat (by rw [List.length_append]; omega),
    leWord_toNat (by omega), leWord_toNat (by omega), leNat_append, hlo]
  have h1 := leNat_lt lo
  have h2 := leNat_lt hi
  rw [hlo] at h1
  rw [hhi] at h2
  omega

/-! ### The statements -/

/-- Settles O29: a write is `Memory.set`, of which the small lemmas say what reads back and that the form is kept. -/
theorem memWriteThenRead : Obligations.MemWriteThenRead := by
  intro m i v
  refine ⟨fun hi => ⟨_, memWrite_ok v hi, ?_, fun j hj => ?_, fun hm => wf_set v hm hi⟩, fun hi => ⟨?_, ?_⟩⟩
  · exact readByte_eq_ok.mpr ⟨hi, by rw [get?_set, if_pos rfl]⟩
  · rw [readByte, readByte, get?_set, if_neg hj.symm]
  · exact if_neg (Nat.not_lt.mpr hi)
  · exact if_neg (Nat.not_lt.mpr hi)

/-- Settles O30: the eight bytes read are the two runs of four that the narrow reads answer. -/
theorem wideReadIsTwoNarrowReads : Obligations.WideReadIsTwoNarrowReads := by
  intro m i w h
  obtain ⟨bs, hbs, rfl⟩ := memRead_eq_ok.mp h
  have hlen : bs.length = 8 := (readBytes_eq_ok.mp hbs).1
  have hlo := readBytes_sub (o := 0) (k := 4) hbs (by decide)
  have hhi := readBytes_sub (o := 4) (k := 4) hbs (by decide)
  refine ⟨_, _, memRead_eq_ok.mpr ⟨_, hlo, rfl⟩, memRead_eq_ok.mpr ⟨_, hhi, rfl⟩, ?_⟩
  rw [List.drop_zero, ← leWord_append_four (by simp [hlen]) (by simp [hlen]),
    List.take_of_length_le (l := bs.drop 4) (by simp [hlen]), List.take_append_drop]

/-- Settles O31: a run inside a run reads the same bytes. -/
theorem tailReadsAreMemReads : Obligations.TailReadsAreMemReads := by
  intro m r o n t ht ho
  have hsub := readBytes_sub ht ho
  rw [Nat.zero_add] at hsub
  exact memRead_eq_ok.mpr ⟨_, hsub, rfl⟩

end Sys2Proof.Machine
end

section
/-! What PUSH and FINAL store, mix and leave, in every case (R133, R134). -/

namespace Sys2Proof.Machine

/-! ### The loop of PUSH on CARRY -/

/-- PUSH's loop writes CARRY at the addresses `(FILL + k) mod 32` of its bytes only. -/
theorem pushBytes_get?_of_ne {d : List Byte} {s t : State} (h : pushBytes d s = .ok t) {i : Nat}
    (hi : ∀ k < d.length, (s.fill + k) % 32 ≠ i) : Memory.get? t.carry i = Memory.get? s.carry i := by
  induction d generalizing s with
  | nil => cases h; rfl
  | cons b d ih =>
    rw [pushBytes] at h
    cases hb : pushByte b s with
    | error f => simp [hb] at h
    | ok s' =>
      rw [hb] at h
      have hframe := (pushByte_frame hb).1
      have hfill : s'.fill = (s.fill + 1) % 32 := by rw [hframe]; exact fill_succ { s with hash := s'.hash } _
      have hcarry : s'.carry = Memory.set s.carry s.fill b := by rw [hframe]
      have hne : s.fill ≠ i := by
        have h0 := hi 0 (by simp)
        rwa [Nat.add_zero, Nat.mod_eq_of_lt (fill_lt s)] at h0
      rw [ih h fun k hk => ?_, hcarry, get?_set, if_neg hne]
      have hk' := hi (k + 1) (by simpa using hk)
      rw [hfill]
      omega

/-- Byte `k` of at most 32 bytes of PUSH stands at `(FILL + k) mod 32` after the loop: the later bytes go elsewhere. -/
theorem pushBytes_get?_of_lt {d : List Byte} {s t : State} (h : pushBytes d s = .ok t) (hd : d.length ≤ 32) {k : Nat}
    (hk : k < d.length) : Memory.get? t.carry ((s.fill + k) % 32) = some d[k] := by
  induction d generalizing s k with
  | nil => simp at hk
  | cons b d ih =>
    rw [pushBytes] at h
    cases hb : pushByte b s with
    | error f => simp [hb] at h
    | ok s' =>
      rw [hb] at h
      have hframe := (pushByte_frame hb).1
      have hfill : s'.fill = (s.fill + 1) % 32 := by rw [hframe]; exact fill_succ { s with hash := s'.hash } _
      rw [List.length_cons] at hd hk
      have hlt := fill_lt s
      cases k with
      | zero =>
        rw [pushBytes_get?_of_ne h fun k hk => by rw [hfill]; omega, hframe, Nat.add_zero, Nat.mod_eq_of_lt hlt,
          get?_set, if_pos rfl, List.getElem_cons_zero]
      | succ k =>
        rw [List.getElem_cons_succ, ← ih h (by omega) (by omega), hfill]
        congr 1
        omega

/-- Below the end of a block PUSH's loop is a run of byte writes, and nothing is read. -/
theorem pushBytes_of_short {d : List Byte} {s : State} {m : List Host.Cell} (hd : s.fill + d.length < 32)
    (hm : writeBytes s.carry s.fill d = .ok m) :
    pushBytes d s = .ok { s with carry := m, bytes := s.bytes + BitVec.ofNat 64 d.length } := by
  induction d generalizing s with
  | nil => cases hm; simp [pushBytes]
  | cons b d ih =>
    rw [List.length_cons] at hd
    have hfill := fill_succ s (Memory.set s.carry s.fill b)
    rw [Nat.mod_eq_of_lt (by omega)] at hfill
    rw [writeBytes, memWrite_ok b (fill_lt s)] at hm
    rw [pushBytes, pushByte_eq, if_neg (by omega)]
    refine (ih (by rw [hfill]; omega) (by rwa [hfill])).trans ?_
    rw [List.length_cons, Nat.add_comm d.length 1, BitVec.ofNat_add, ← BitVec.add_assoc]
    rfl

/-- What PUSH's loop does to the state words where it completes no block, or one block whose first bytes hold values. -/
theorem pushBytes_hash {d : List Byte} {s : State} {b : Nat → Byte} (hd : d.length ≤ 32)
    (hb : 32 ≤ s.fill + d.length → CarryHolds s.carry s.fill b) :
    ∃ t, pushBytes d s = .ok t ∧
      t.hash = if s.fill + d.length < 32 then s.hash
        else mixBlock ((List.range s.fill).map b ++ d.take (32 - s.fill)) 0 s.hash := by
  have hlt := fill_lt s
  by_cases hshort : s.fill + d.length < 32
  · obtain ⟨m, hm, -⟩ := writeBytes_spec (m := s.carry) hshort.le
    exact ⟨_, pushBytes_of_short hshort hm, by rw [if_pos hshort]⟩
  · have hread := readBytes_eq_map_range (m := s.carry) (i := 0) (n := s.fill)
      (by rw [Nat.zero_add]; exact hlt.le) (by simpa [CarryHolds] using hb (by omega))
    obtain ⟨-, hs⟩ := absorbs_of_valid_bytes hread
    obtain ⟨t, ht, -, habs⟩ := pushBytes_absorbs hs (by simp [Nat.mod_eq_of_lt hlt]) d
    have hblock : ((List.range s.fill).map b ++ d).length / 32 = 1 := by simp; omega
    refine ⟨t, ht, ?_⟩
    rw [if_neg hshort, habs.hash, hblock]
    conv_lhs => rw [← List.take_append_drop (32 - s.fill) d, ← List.append_assoc]
    exact mixBlock_append _ (by simp; omega) s.hash

/-! ### A byte without a value -/

/-- PUSH's loop that completes a block stops at the first byte below FILL that holds no value: the bytes before the block's
last are only stored, above it, and the last one has MIX32 read the block. -/
theorem pushBytes_of_no_value {d : List Byte} {s : State} {i : Nat} (hd : 32 ≤ s.fill + d.length) (hi : i < s.fill)
    (hsome : ∀ j < i, (Memory.get? s.carry j).isSome) (hnone : Memory.get? s.carry i = none) :
    pushBytes d s = .error (.carryNoValue i) := by
  have hlt := fill_lt s
  obtain ⟨d₁, b, d₂, rfl, hlen⟩ : ∃ d₁ b d₂, d = d₁ ++ b :: d₂ ∧ d₁.length = 31 - s.fill := by
    have hsplit := List.take_append_drop (31 - s.fill) d
    cases hdrop : d.drop (31 - s.fill) with
    | nil => simp at hdrop; omega
    | cons b d₂ => exact ⟨_, b, d₂, by rw [← hdrop, hsplit], by simp; omega⟩
  obtain ⟨m, hm, hget, -⟩ := writeBytes_spec (m := s.carry) (i := s.fill) (bs := d₁)
    (show s.fill + d₁.length ≤ 32 by omega)
  have hfront := pushBytes_of_short (by omega) hm
  generalize ht : ({ s with carry := m, bytes := s.bytes + BitVec.ofNat 64 d₁.length } : State) = t at hfront
  have hfill : t.fill = 31 := by
    simp only [← ht, State.fill, BitVec.toNat_add, BitVec.toNat_ofNat] at hlen hlt ⊢
    omega
  have hcarry : ∀ j ≤ i, Memory.get? (Memory.set t.carry 31 b) j = Memory.get? s.carry j := by
    intro j hj
    rw [get?_set, if_neg (by omega), ← ht, hget j, if_neg (by omega)]
  have hread : readBytes (Memory.set t.carry 31 b) 0 32 = .error (.carryNoValue i) :=
    readBytes_of_no_value le_rfl (by omega) (fun j hj => by rw [hcarry j hj.le]; exact hsome j hj)
      (by rw [hcarry i le_rfl]; exact hnone)
  simp [pushBytes_append, hfront, pushBytes, pushByte_eq, hfill, mixCarry_eq, hread, Except.map]

/-! ### FINAL -/

/-- FINAL in ACTIVE is a read of the valid bytes of CARRY and a write of the words, BYTES and PHASE. -/
theorem execFinal_of_active {s : State} (hp : s.phase = .active) :
    execFinal s = settle ((readBytes s.carry 0 s.fill).map fun t =>
      { s with hash := finalHash s.bulk t s.hash, bytes := 0, phase := .finalized }) := by
  rw [execFinal, if_neg (not_not.mpr hp)]
  cases readBytes s.carry 0 s.fill <;> rfl

/-! ### The statements -/

/-- Settles O14: PUSH's three checks, in their order. -/
theorem pushValidatesInOrder : Obligations.PushValidatesInOrder :=
  fun _ _ => ⟨execPush_of_overlong, execPush_of_not_active, execPush_of_overflow⟩

/-- Settles O15: FINAL's check fails, and the state is the reject's. -/
theorem finalOutsideActiveIsRejected : Obligations.FinalOutsideActiveIsRejected :=
  fun _ hp => execFinal_of_not_active hp

/-- Settles O42: no check fails, and the loop has no turn. -/
theorem emptyPushChangesNothing : Obligations.EmptyPushChangesNothing := by
  intro s hp
  rw [exec_push, execPush_of_accepted (d := []) (Nat.zero_le 8) hp s.bytes.isLt, pushBytes, settle]

/-- Settles O41: PUSH is its loop, of which the lemmas say what it stores, mixes and leaves. -/
theorem pushStoresAndMixes : Obligations.PushStoresAndMixes := by
  intro s d b hp hd hn hb
  obtain ⟨t, ht, hhash⟩ := pushBytes_hash (hd.trans (by decide)) hb
  obtain ⟨hphase, hbytes⟩ := pushBytes_phase_bytes ht
  have hfill (k : Nat) : (s.bytes.toNat + k) % 32 = (s.fill + k) % 32 := (Nat.mod_add_mod _ _ _).symm
  refine ⟨t, ?_, ?_, fun k hk => ?_, fun i hi => ?_, hhash, hphase.trans hp, ?_⟩
  · rw [exec_push, execPush_of_accepted hd hp hn, ht, settle]
  · rw [hbytes, BitVec.toNat_add, BitVec.toNat_ofNat]
    omega
  · rw [hfill]
    exact readByte_eq_ok.mpr ⟨Nat.mod_lt _ (by decide), pushBytes_get?_of_lt ht (by omega) hk⟩
  · rw [readByte, readByte, pushBytes_get?_of_ne ht (by simpa only [hfill] using hi)]
  · rw [pushBytes_frame ht]
    exact ⟨rfl, rfl, rfl, rfl, rfl⟩

/-- Settles O43: FINAL reads the list of the bytes that the front of CARRY holds. -/
theorem finalCompletes : Obligations.FinalCompletes := by
  intro s b hp hb
  have hread : readBytes s.carry 0 s.fill = .ok ((List.range s.fill).map b) :=
    readBytes_eq_map_range (by rw [Nat.zero_add]; exact (fill_lt s).le) (by simpa [CarryHolds] using hb)
  rw [exec_final, execFinal_of_active hp, hread]
  simp [Except.map, settle, finalHash, State.bulk]

/-- Settles O44: FINAL reads CARRY from 0 up to FILL, and a PUSH that completes a block reads all of it. -/
theorem readOfNoValueFaults : Obligations.ReadOfNoValueFaults := by
  intro s i hp hi hsome hnone
  refine ⟨?_, fun d hd hn hblock => ?_⟩
  · rw [exec_final, execFinal_of_active hp, readBytes_of_no_value (fill_lt s).le hi hsome hnone]
    rfl
  · rw [exec_push, execPush_of_accepted hd hp hn, pushBytes_of_no_value hblock hi hsome hnone, settle]

end Sys2Proof.Machine
end

section
/-! What no command sequence can observe stays unobserved (R21, R23, R36, R182). -/

namespace Sys2Proof.Machine

/-! ### Indistinguishable states along the operations -/

/-- States that differ in CARRY only, at and above FILL, cannot be told apart. -/
theorem indistinguishable_of_carry {s t : State} (h : t = { s with carry := t.carry })
    (hc : ∀ i < s.fill, Memory.get? s.carry i = Memory.get? t.carry i) : Indistinguishable s t := by
  rw [h]
  exact ⟨rfl, rfl, rfl, rfl, rfl, rfl, rfl, fun _ => rfl, fun _ => ⟨rfl, rfl⟩, fun _ => hc⟩

theorem Indistinguishable.eq_of_active {s t : State} (h : Indistinguishable s t) (hp : s.phase = .active) :
    t = { s with carry := t.carry } := by
  obtain ⟨hbytes, hphase, herr, hcode, hhost, hpc, hresets, hhash, -, -⟩ := h
  rw [hbytes, hphase, herr, hcode, hhost, hpc, hresets, hhash hp]

theorem Indistinguishable.fill_eq {s t : State} (h : Indistinguishable s t) : s.fill = t.fill := by
  rw [State.fill, State.fill, h.bytes]

theorem indistinguishable_takeCommand {s t : State} (h : Indistinguishable s t) :
    Indistinguishable (takeCommand s) (takeCommand t) :=
  { h with host := by simp [h.host], pc := by simp [h.pc] }

theorem indistinguishable_dropDrive {s t : State} (h : Indistinguishable s t) :
    Indistinguishable (dropDrive s) (dropDrive t) :=
  { h with host := by simp [h.host] }

theorem indistinguishable_reject (c : Cause) {s t : State} (h : Indistinguishable s t) :
    Indistinguishable (reject c s) (reject c t) :=
  { h with err := rfl, errCode := by simp [h.err, h.errCode] }

/-- A reset leaves nothing of the engine's state, and draws the words of A to D by the count of resets. -/
theorem indistinguishable_resetEngine {s t : State} (h : Indistinguishable s t) :
    Indistinguishable (resetEngine s) (resetEngine t) :=
  ⟨rfl, rfl, rfl, rfl, h.host, h.pc, by simp [h.resets], fun _ => by simp [h.resets], fun _ => by simp [h.resets],
    fun _ _ _ => rfl⟩

/-! ### PUSH and FINAL -/

/-- One byte of PUSH reads CARRY only where it is full, and leaves its new byte valid. -/
theorem pushByte_sameOutcome {s t : State} (h : Indistinguishable s t) (hp : s.phase = .active) (b : Byte) :
    SameOutcome (settle (pushByte b s)) (settle (pushByte b t)) := by
  have hfill : ∀ m, ({ s with carry := m, bytes := s.bytes + 1 } : State).fill = (s.fill + 1) % 32 := fill_succ s
  have hlt := fill_lt s
  have hset : ∀ i < s.fill + 1, Memory.get? (Memory.set s.carry s.fill b) i =
      Memory.get? (Memory.set t.carry s.fill b) i := by
    intro i hi
    rw [get?_set, get?_set]
    split
    · rfl
    · exact h.carry hp i (by omega)
  rw [pushByte_eq, pushByte_eq, ← h.fill_eq, h.eq_of_active hp]
  by_cases hlast : s.fill = 31
  · rw [hlast] at hset
    rw [if_pos hlast, if_pos hlast, mixCarry_eq, mixCarry_eq,
      readBytes_congr (m := Memory.set s.carry 31 b) (m' := Memory.set t.carry 31 b) fun k hk => hset _ (by omega)]
    cases readBytes (Memory.set t.carry 31 b) 0 32 with
    | error f => rfl
    | ok blk =>
      exact indistinguishable_of_carry rfl fun i hi => hset i (hi.trans (fill_lt _))
  · rw [if_neg hlast, if_neg hlast]
    refine indistinguishable_of_carry rfl fun i hi => hset i ?_
    rw [hfill] at hi
    omega

theorem pushBytes_sameOutcome {s t : State} (h : Indistinguishable s t) (hp : s.phase = .active) (d : List Byte) :
    SameOutcome (settle (pushBytes d s)) (settle (pushBytes d t)) := by
  induction d generalizing s t with
  | nil => exact h
  | cons b d ih =>
    have hb := pushByte_sameOutcome h hp b
    rw [pushBytes, pushBytes]
    cases hs : pushByte b s with
    | error f =>
      cases ht : pushByte b t with
      | error g => simpa only [hs, ht] using hb
      | ok t' => simp [hs, ht, settle, SameOutcome] at hb
    | ok s' =>
      cases ht : pushByte b t with
      | error g => simp [hs, ht, settle, SameOutcome] at hb
      | ok t' =>
        rw [hs, ht] at hb
        have hphase : s'.phase = .active := by rw [(pushByte_frame hs).1, hp]
        exact ih hb hphase

theorem execPush_sameOutcome {s t : State} (h : Indistinguishable s t) (d : List Byte) :
    SameOutcome (execPush d s) (execPush d t) := by
  rcases execPush_cases d s with ⟨hd, hs⟩ | ⟨hd, hp, hs⟩ | ⟨hd, hp, hn, hs⟩ | ⟨hd, hp, hn, hs⟩ <;> rw [hs]
  · rw [execPush_of_overlong hd]
    exact indistinguishable_reject _ h
  · rw [execPush_of_not_active hd (h.phase ▸ hp)]
    exact indistinguishable_reject _ h
  · rw [execPush_of_overflow hd (h.phase ▸ hp) (h.bytes ▸ hn)]
    exact indistinguishable_reject _ h
  · rw [execPush_of_accepted hd (h.phase ▸ hp) (h.bytes ▸ hn)]
    exact pushBytes_sameOutcome h hp d

theorem execFinal_sameOutcome {s t : State} (h : Indistinguishable s t) :
    SameOutcome (execFinal s) (execFinal t) := by
  by_cases hp : s.phase = .active
  · have hread : readBytes t.carry 0 s.fill = readBytes s.carry 0 s.fill :=
      readBytes_congr fun k hk => by rw [Nat.zero_add]; exact (h.carry hp k hk).symm
    rw [execFinal_of_active hp, execFinal_of_active (h.phase ▸ hp), ← h.fill_eq, hread, ← h.hash hp, State.bulk,
      State.bulk, ← h.bytes]
    cases readBytes s.carry 0 s.fill with
    | error f => rfl
    | ok b =>
      exact ⟨rfl, rfl, h.err, h.errCode, h.host, h.pc, h.resets, fun _ => rfl, fun _ => ⟨rfl, rfl⟩,
        fun hp => by simp at hp⟩
  · rw [execFinal_of_not_active hp, execFinal_of_not_active (h.phase ▸ hp)]
    exact indistinguishable_reject _ h

/-! ### Commands and steps -/

theorem exec_sameOutcome {s t : State} (h : Indistinguishable s t) (i : Instr) : SameOutcome (exec i s) (exec i t) := by
  cases i with
  | nop => exact h
  | init seed =>
    exact ⟨rfl, rfl, h.err, h.errCode, h.host, h.pc, h.resets, fun _ => rfl, fun _ => ⟨rfl, rfl⟩,
      fun _ i hi => absurd hi (Nat.not_lt_zero i)⟩
  | push d => exact execPush_sameOutcome h d
  | final => exact execFinal_sameOutcome h

theorem runWord_sameOutcome {s t : State} (h : Indistinguishable s t) (w : CmdWord) :
    SameOutcome (runWord w s) (runWord w t) := by
  rw [runWord, runWord]
  cases decode w with
  | ok i => exact exec_sameOutcome h i
  | error e => exact indistinguishable_reject _ h

/-! ### The statements -/

/-- Settles O56: both states sample the same drive, and each thing a sampling can do keeps what is observed. -/
theorem stepKeepsIndistinguishability : Obligations.StepKeepsIndistinguishability := by
  intro s t h
  rcases step_cases s with ⟨hhost, hs⟩ | ⟨⟨d, rest, hhost, hr⟩, hs⟩ | ⟨⟨d, rest, hhost, hr, hv⟩, hs⟩ | ⟨w, hw, hs⟩ <;>
    rw [hs]
  · rw [step_exhausted (h.host ▸ hhost)]
    exact h
  · rw [step_reset (h.host ▸ hhost) hr]
    exact indistinguishable_resetEngine (indistinguishable_dropDrive h)
  · rw [step_idle (h.host ▸ hhost) hr hv]
    exact indistinguishable_dropDrive h
  · have hw' : Presents t w := by rwa [Presents, ← h.host]
    rw [step_presents hw']
    exact runWord_sameOutcome (indistinguishable_takeCommand h) w

/-- Settles O57: the ports show PHASE, the flags, BYTES and, in FINALIZED, A and B. -/
theorem indistinguishableStatesShowTheSamePorts : Obligations.IndistinguishableStatesShowTheSamePorts := by
  intro s t h
  have hvalid : digestValid s = digestValid t := by rw [digestValid, digestValid, h.phase]
  refine ⟨by rw [statusPort, statusPort, h.errCode, h.err, h.phase], h.bytes, hvalid, ?_⟩
  rw [digestPort, digestPort, digestBytes, digestBytes, ← hvalid]
  cases hv : digestValid s with
  | false => simp
  | true =>
    obtain ⟨hA, hB⟩ := h.digest (by simpa [digestValid] using hv)
    simp [output, hA, hB]

end Sys2Proof.Machine
end

section
/-! The decoder against the encoder and the opcode table (R72 to R79). -/

namespace Sys2Proof.Machine

/-! ### The words of the commands -/

theorem illegalFormat_mkWord {op n : BitVec 4} {p : Word} :
    IllegalFormat (mkWord op n p) ↔ (op = 0 ∧ (n ≠ 0 ∨ p ≠ 0)) ∨ (op = 1 ∧ n ≠ 0) ∨ (op = 2 ∧ 9 ≤ n.toNat) ∨
      (op = 3 ∧ (n ≠ 0 ∨ p ≠ 0)) := by
  rw [IllegalFormat, opField_mkWord, nField_mkWord, payloadField_mkWord]

theorem decode_mkWord_nop : decode (mkWord 0 0 0) = .ok .nop := rfl

theorem decode_mkWord_final : decode (mkWord 3 0 0) = .ok .final := rfl

theorem decode_mkWord_init (p : Word) : decode (mkWord 1 0 p) = .ok (.init p) := by
  rw [decode_of_legal (by rw [opField_mkWord]; decide) (by rw [illegalFormat_mkWord]; simp), opField_mkWord,
    payloadField_mkWord]
  rfl

theorem decode_mkWord_push {n : BitVec 4} (hn : n.toNat ≤ 8) (p : Word) :
    decode (mkWord 2 n p) = .ok (.push (pushData n.toNat p)) := by
  have hlegal : ¬ IllegalFormat (mkWord 2 n p) := by
    rw [illegalFormat_mkWord]
    simp [Nat.lt_succ_of_le hn]
  rw [decode_of_legal_push hlegal (opField_mkWord _ _ _), nField_mkWord, payloadField_mkWord]

/-- What a decoded word is: its opcode, the fields that must be zero, and the operand. -/
theorem decode_ok_cases {w : CmdWord} {i : Instr} (h : decode w = .ok i) :
    (i = .nop ∧ w = mkWord 0 0 0) ∨ (∃ seed, i = .init seed ∧ w = mkWord 1 0 seed) ∨
    (∃ n p, i = .push (pushData n.toNat p) ∧ n.toNat ≤ 8 ∧ w = mkWord 2 n p) ∨ (i = .final ∧ w = mkWord 3 0 0) := by
  obtain ⟨hop, hf⟩ := legal_of_decode_ok h
  rw [← mkWord_fields w] at h hf hop ⊢
  generalize opField w = op, nField w = n, payloadField w = p at h hf hop ⊢
  rw [opField_mkWord] at hop
  rw [illegalFormat_mkWord] at hf
  simp only [not_or, not_and, not_not, ne_eq, not_le] at hf
  obtain ⟨hnop, hinit, hpush, hfinal⟩ := hf
  rcases (by bv_omega : op = 0 ∨ op = 1 ∨ op = 2 ∨ op = 3) with rfl | rfl | rfl | rfl
  · obtain ⟨rfl, rfl⟩ := hnop rfl
    exact .inl ⟨Except.ok.inj h.symm, rfl⟩
  · obtain rfl := hinit rfl
    rw [decode_mkWord_init] at h
    exact .inr (.inl ⟨p, Except.ok.inj h.symm, rfl⟩)
  · have hn : n.toNat ≤ 8 := Nat.le_of_lt_succ (hpush rfl)
    rw [decode_mkWord_push hn] at h
    exact .inr (.inr (.inl ⟨n, p, Except.ok.inj h.symm, hn, rfl⟩))
  · obtain ⟨rfl, rfl⟩ := hfinal rfl
    exact .inr (.inr (.inr ⟨Except.ok.inj h.symm, rfl⟩))

/-- The decoder's three answers, by the checks on a word's fields. -/
theorem decode_cases (w : CmdWord) :
    (4 ≤ (opField w).toNat ∧ decode w = .error .illop) ∨ (IllegalFormat w ∧ decode w = .error .illfmt) ∨
    ((opField w).toNat < 4 ∧ ¬ IllegalFormat w ∧ ∃ i, decode w = .ok i) := by
  by_cases hop : 4 ≤ (opField w).toNat
  · exact .inl ⟨hop, decode_of_reserved hop⟩
  by_cases hf : IllegalFormat w
  · exact .inr (.inl ⟨hf, decode_of_illegalFormat hf⟩)
  refine .inr (.inr ⟨Nat.lt_of_not_le hop, hf, ?_⟩)
  rw [decode_of_legal (Nat.lt_of_not_le hop) hf]
  split_ifs <;> exact ⟨_, rfl⟩

/-! ### The data bytes of PUSH -/

theorem pushData_leWord {d : List Byte} (hd : d.length ≤ 8) : pushData d.length (leWord d) = d :=
  List.ext_getElem (pushData_length _ _) fun i _ hi => by simp [pushData, lane_leWord hd hi]

/-- The lanes above the assembled bytes are zero. -/
theorem lane_leWord_of_ge {d : List Byte} (hd : d.length ≤ 8) {k : Nat} (hk : d.length ≤ k) : lane (leWord d) k = 0 := by
  have hlt : leNat d < 2 ^ (8 * k) :=
    calc leNat d < 256 ^ d.length := leNat_lt d
      _ ≤ 256 ^ k := Nat.pow_le_pow_right (by decide) hk
      _ = 2 ^ (8 * k) := (Nat.pow_mul 2 8 k).symm
  apply BitVec.eq_of_toNat_eq
  rw [lane, BitVec.extractLsb'_toNat, leWord_toNat hd, Nat.shiftRight_eq_div_pow, Nat.div_eq_of_lt hlt]
  rfl

/-- The word of a PUSH: its count of bytes, the bytes in the lanes below it, zeros in the others. -/
theorem encode_push_fields {d : List Byte} (hd : d.length ≤ 8) :
    opField (encode (.push d)) = 2 ∧ (nField (encode (.push d))).toNat = d.length ∧
    (∀ k (hk : k < d.length), lane (payloadField (encode (.push d))) k = d[k]) ∧
    (∀ k, d.length ≤ k → lane (payloadField (encode (.push d))) k = 0) := by
  rw [encode, opField_mkWord, nField_mkWord, payloadField_mkWord]
  refine ⟨rfl, ?_, fun k hk => lane_leWord hd hk, fun k hk => lane_leWord_of_ge hd hk⟩
  rw [BitVec.toNat_ofNat]
  omega

@[simp] theorem getElem_pushData {n k : Nat} {p : Word} (hk : k < (pushData n p).length) :
    (pushData n p)[k] = lane p k := by simp [pushData]

/-! ### The opcode table -/

theorem and_fifteen (x : BitVec 4) : x &&& 15#4 = x := BitVec.and_allOnes

theorem and_all_ones_word (x : Word) : x &&& 0xFFFFFFFFFFFFFFFF#64 = x := BitVec.and_allOnes

/-- What a row asks of a word's fields: its opcode, zeros where its mask reaches, and for PUSH at most 8 bytes. -/
theorem selects_mkWord {name : String} {op op' n n' : BitVec 4} {p p' : Word} :
    OpcodeRow.selects ⟨name, mkWord op' 0 0, mkWord 15 n' p'⟩ (mkWord op n p) = true ↔
      (op = op' ∧ n &&& n' = 0 ∧ p &&& p' = 0) ∧ (name ≠ "PUSH" ∨ n.toNat ≤ 8) := by
  simp [OpcodeRow.selects, Laws.SelectsOwnRow.and_mkWord, Laws.SelectsOwnRow.mkWord_inj, nField_mkWord, and_fifteen]

/-- A word that selects a row is a command of the row. -/
theorem decode_ok_of_selects {r : OpcodeRow} (hr : r ∈ opcodeRows) {w : CmdWord} (h : r.selects w = true) :
    ∃ i, decode w = .ok i := by
  rw [← mkWord_fields w] at h ⊢
  generalize opField w = op, nField w = n, payloadField w = p at h ⊢
  rw [Laws.SelectsOwnRow.rows_by_fields] at hr
  simp only [List.mem_cons, List.not_mem_nil, or_false] at hr
  rcases hr with rfl | rfl | rfl | rfl <;> rw [selects_mkWord] at h
  · obtain ⟨rfl, rfl, rfl⟩ : op = 0 ∧ n = 0 ∧ p = 0 := by simpa [and_fifteen, and_all_ones_word] using h
    exact ⟨_, decode_mkWord_nop⟩
  · obtain ⟨rfl, rfl⟩ : op = 1 ∧ n = 0 := by simpa [and_fifteen] using h
    exact ⟨_, decode_mkWord_init p⟩
  · obtain ⟨rfl, hn⟩ : op = 2 ∧ n.toNat ≤ 8 := by simpa using h
    exact ⟨_, decode_mkWord_push hn p⟩
  · obtain ⟨rfl, rfl, rfl⟩ : op = 3 ∧ n = 0 ∧ p = 0 := by simpa [and_fifteen, and_all_ones_word] using h
    exact ⟨_, decode_mkWord_final⟩

/-- A word of PUSH selects the row of PUSH and no other, whatever its payload. -/
theorem rows_of_push {n : BitVec 4} (hn : n.toNat ≤ 8) (p : Word) :
    (opcodeRows.filter (·.selects (mkWord 2 n p))).map OpcodeRow.mnemonic = ["PUSH"] := by
  simp only [Laws.SelectsOwnRow.rows_by_fields, List.filter_cons, selects_mkWord]
  simp [hn]

/-! ### The statements -/

/-- Settles O1: each word is its fields put together, which the decoder's equations read. -/
theorem sampleWordsDecode : Obligations.SampleWordsDecode := ⟨rfl, rfl, rfl, rfl, rfl, rfl, rfl⟩

/-- Settles O2: the decoder reads each field back, and the lanes of a PUSH are its bytes. -/
theorem decodeOfEncodeIsTheCommand : Obligations.DecodeOfEncodeIsTheCommand := by
  intro i hi
  cases i with
  | nop => exact decode_mkWord_nop
  | init seed => exact decode_mkWord_init seed
  | push d =>
    have hd : d.length ≤ 8 := by simpa [WellFormed] using hi
    have hn : (BitVec.ofNat 4 d.length).toNat = d.length := by rw [BitVec.toNat_ofNat]; omega
    rw [encode, decode_mkWord_push (hn.trans_le hd), hn, pushData_leWord hd]
  | final => exact decode_mkWord_final

/-- Settles O3: NOP, INIT and FINAL are read from their own words, and a PUSH from a word of the same fields below `n`. -/
theorem encodeOfDecodeIsTheWordRead : Obligations.EncodeOfDecodeIsTheWordRead := by
  intro w i h
  rcases decode_ok_cases h with ⟨rfl, rfl⟩ | ⟨seed, rfl, rfl⟩ | ⟨n, p, rfl, hn, rfl⟩ | ⟨rfl, rfl⟩
  · exact ⟨rfl, rfl⟩
  · exact ⟨rfl, rfl⟩
  · have hlen : (pushData n.toNat p).length ≤ 8 := by rwa [pushData_length]
    obtain ⟨hop, hcount, hlow, hhigh⟩ := encode_push_fields hlen
    rw [pushData_length] at hcount
    refine ⟨by simpa [WellFormed] using hn, opField_mkWord _ _ _, ?_, ?_, ?_, fun k hk => ?_, fun k hk _ => hhigh k hk⟩
    · rw [nField_mkWord, pushData_length]
    · rw [hop, opField_mkWord]
    · exact BitVec.eq_of_toNat_eq (by rw [hcount, nField_mkWord])
    · rw [hlow k hk, payloadField_mkWord, getElem_pushData]
  · exact ⟨rfl, rfl⟩

/-- Settles O4: of the decoder's three answers each check has its own. -/
theorem decodeRefusesReservedAndMalformed : Obligations.DecodeRefusesReservedAndMalformed := by
  intro w
  rcases decode_cases w with ⟨hop, hd⟩ | ⟨hf, hd⟩ | ⟨hop, hf, i, hd⟩
  · have hnot : ¬ IllegalFormat w := fun hf => absurd (opField_lt_of_illegalFormat hf) (Nat.not_lt.mpr hop)
    simp [hd, hop, hnot]
  · have hlt := opField_lt_of_illegalFormat hf
    simp [hd, hf, Nat.not_le.mpr hlt]
  · simp [hd, hf, Nat.not_le.mpr hop]

/-- Settles O5: a decoded word is one of the four forms, each of its own row, and a word of a row decodes. -/
theorem decodeAgreesWithOpcodeTable : Obligations.DecodeAgreesWithOpcodeTable := by
  intro w
  cases hd : decode w with
  | ok i =>
    rcases decode_ok_cases hd with ⟨rfl, rfl⟩ | ⟨seed, rfl, rfl⟩ | ⟨n, p, rfl, hn, rfl⟩ | ⟨rfl, rfl⟩
    · exact Laws.SelectsOwnRow.nop rfl
    · exact Laws.SelectsOwnRow.init seed rfl
    · exact rows_of_push hn p
    · exact Laws.SelectsOwnRow.final rfl
  | error e =>
    refine ⟨List.filter_eq_nil_iff.mpr fun r hr hsel => ?_, ?_⟩
    · obtain ⟨i, hi⟩ := decode_ok_of_selects hr hsel
      simp [hd] at hi
    · rw [← (decodeRefusesReservedAndMalformed w).1, hd, Except.error.injEq]

/-- Settles O6: both are malformed, or both are the PUSH of the lanes below `n`. -/
theorem pushIgnoresLanesAtAndAboveN : Obligations.PushIgnoresLanesAtAndAboveN := by
  intro w w' hop hop' hn hlanes
  rw [← mkWord_fields w, ← mkWord_fields w', hop, hop', ← hn]
  by_cases hle : (nField w).toNat ≤ 8
  · rw [decode_mkWord_push hle, decode_mkWord_push hle, pushData, pushData,
      List.map_congr_left fun k hk => hlanes k (List.mem_range.mp hk)]
  · have hf (p : Word) : IllegalFormat (mkWord 2 (nField w) p) :=
      illegalFormat_mkWord.mpr (.inr (.inr (.inl ⟨rfl, Nat.lt_of_not_le hle⟩)))
    rw [decode_of_illegalFormat (hf _), decode_of_illegalFormat (hf _)]

/-- Settles O54: the line is the word of a PUSH of the payload's lanes below `n`. -/
theorem assemblerWritesZeroLanes : Obligations.AssemblerWritesZeroLanes := by
  intro n payload hn hp
  have hlen : (pushData n (BitVec.ofNat 64 payload)).length ≤ 8 := by rwa [pushData_length]
  obtain ⟨hop, hcount, hlow, hhigh⟩ := encode_push_fields hlen
  rw [pushData_length] at hcount hhigh
  refine ⟨_, ?_, hop, hcount, fun k hk => ?_, fun k hk _ => hhigh k hk⟩
  · rw [assembleWords, assemble, if_pos ⟨hn, hp⟩]
    rfl
  · rw [hlow k (by rwa [pushData_length]), getElem_pushData]

/-- Settles O53: the cuts of eight bytes from `8 k` on, each of them begun inside the chunk. -/
theorem updateExpansion : Obligations.UpdateExpansion := by
  intro c
  have hlen : (beats c).length = (c.length + 7) / 8 := by simp [beats]
  have hbeat : ∀ k d, (beats c)[k]? = some d → 8 * k < c.length ∧ d.length = min 8 (c.length - 8 * k) := by
    intro k d hd
    have hk := (List.getElem?_eq_some_iff.mp hd).1
    rw [hlen] at hk
    rw [beats, List.getElem?_map, List.getElem?_range hk, Option.map_some, Option.some.injEq] at hd
    rw [← hd, List.length_take, List.length_drop]
    exact ⟨by omega, rfl⟩
  refine ⟨rfl, flatten_beats c, hlen, fun d hd => ⟨?_, length_le_of_mem_beats hd⟩, fun k d hd hk => ?_⟩
  · obtain ⟨k, hk⟩ := List.mem_iff_getElem?.mp hd
    have hb := hbeat k d hk
    omega
  · have hb := hbeat k d hd
    rw [hlen] at hk
    omega

end Sys2Proof.Machine
end

section
/-! The mixing primitives (R91, R98 to R107). -/

namespace Sys2Proof.Machine

/-! ### The words a primitive writes and reads -/

theorem hashState_ext {h k : HashState} (hA : h.A = k.A) (hB : h.B = k.B) (hC : h.C = k.C) (hD : h.D = k.D) :
    h = k := by
  cases h
  cases k
  simp_all

/-- The state words with other words in C and D. -/
def HashState.setCD (c d : Word) (h : HashState) : HashState := { h with C := c, D := d }

@[simp] theorem HashState.setCD_A (c d : Word) (h : HashState) : (h.setCD c d).A = h.A := rfl
@[simp] theorem HashState.setCD_B (c d : Word) (h : HashState) : (h.setCD c d).B = h.B := rfl
@[simp] theorem HashState.setCD_C (c d : Word) (h : HashState) : (h.setCD c d).C = c := rfl
@[simp] theorem HashState.setCD_D (c d : Word) (h : HashState) : (h.setCD c d).D = d := rfl

theorem withCD_eq (c d : Word) (s : State) : withCD c d s = { s with hash := s.hash.setCD c d } := rfl

/-- A function of the state words that keeps C and D and does not read them. -/
def IgnoresCD (f : HashState → HashState) : Prop :=
  ∀ c d h, f (h.setCD c d) = (f h).setCD c d

theorem ignoresCD_t16 (t : List Byte) (o : Nat) : IgnoresCD (t16 t o) := fun c d h => by
  simp only [t16, HashState.setCD]

theorem ignoresCD_t8 (t : List Byte) (o : Nat) : IgnoresCD (t8 t o) := fun c d h => by
  simp only [t8, HashState.setCD]

theorem ignoresCD_t4 (t : List Byte) (o : Nat) : IgnoresCD (t4 t o) := fun c d h => by
  simp only [t4, HashState.setCD]

theorem ignoresCD_t2 (t : List Byte) (o : Nat) : IgnoresCD (t2 t o) := fun c d h => by
  simp only [t2, HashState.setCD]

theorem ignoresCD_t1 (t : List Byte) (o : Nat) : IgnoresCD (t1 t o) := fun c d h => by
  simp only [t1, HashState.setCD]

theorem ignoresCD_aval : IgnoresCD aval := fun c d h => by
  simp only [aval, HashState.setCD]

/-- A line of TAIL leaves an offset that the state words do not change. -/
theorem tailLine_setCD {piece : Nat → HashState → HashState} (hp : ∀ o, IgnoresCD (piece o)) (r size o : Nat)
    (c d : Word) (h : HashState) :
    tailLine r size piece (o, h.setCD c d) =
      ((tailLine r size piece (o, h)).1, (tailLine r size piece (o, h)).2.setCD c d) := by
  by_cases hs : size ≤ r - o
  · simp [tailLine, hs, hp o c d h]
  · simp [tailLine, hs]

theorem ignoresCD_tail (t : List Byte) : IgnoresCD (tail t) := fun c d h => by
  simp only [tail, tailLine_setCD (ignoresCD_t16 t), tailLine_setCD (ignoresCD_t8 t), tailLine_setCD (ignoresCD_t4 t),
    tailLine_setCD (ignoresCD_t2 t), tailLine_setCD (ignoresCD_t1 t)]

/-- What ignores C and D leaves them. -/
theorem IgnoresCD.keeps {f : HashState → HashState} (hf : IgnoresCD f) (h : HashState) :
    (f h).C = h.C ∧ (f h).D = h.D := by
  have := hf h.C h.D h
  rw [show h.setCD h.C h.D = h from rfl] at this
  rw [this]
  exact ⟨rfl, rfl⟩

/-- Without BFIN, FINAL's words ignore C and D (R21). -/
theorem ignoresCD_finalHash (t : List Byte) : IgnoresCD (finalHash false t) := fun c d h => by
  simp only [finalHash, Bool.false_eq_true, if_false, ignoresCD_tail t c d h, ignoresCD_aval c d]

/-! ### The statements -/

/-- Settles O32: bit `i` comes from the right shift below `64 - r`, and from the left shift above. -/
theorem rotrMovesBits : Obligations.RotrMovesBits := by
  intro x r h i hi
  rw [rotr, BitVec.getLsbD_or, BitVec.getLsbD_ushiftRight, BitVec.getLsbD_shiftLeft, Nat.add_comm r i]
  by_cases hlow : i + r < 64
  · have hleft : i < 64 - r := by omega
    simp [hleft, Nat.mod_eq_of_lt hlow]
  · have hwrap : (i + r) % 64 = i - (64 - r) := by omega
    have hleft : ¬ i < 64 - r := by omega
    simp [hwrap, hleft, hi, BitVec.getLsbD_of_ge x (i + r) (by omega)]

/-- Settles O34: the lines in the order of the definition. -/
theorem blockFinalizationLines : Obligations.BlockFinalizationLines := fun _ => ⟨rfl, rfl, rfl, rfl⟩

/-- Settles O35: each line of TAIL is the line of one bit of the length, from bit 4 down. -/
theorem tailPiecesByTheBitsOfR : Obligations.TailPiecesByTheBitsOfR := by
  intro t h ht
  have h4 := tailLine_bit t.length 4 (t16 t) h
  rw [Nat.div_eq_of_lt (show t.length < 2 ^ (4 + 1) by omega), Nat.zero_mul] at h4
  have h3 := fun h => tailLine_bit t.length 3 (t8 t) h
  have h2 := fun h => tailLine_bit t.length 2 (t4 t) h
  have h1 := fun h => tailLine_bit t.length 1 (t2 t) h
  have h0 := fun h => tailLine_bit t.length 0 (t1 t) h
  simp only [Nat.reduceAdd, Nat.reducePow] at h4 h3 h2 h1 h0
  simp only [tail, h4, h3, h2, h1, h0]

/-- Settles O36: TAIL ignores C and D, and each piece leaves the words it does not write. -/
theorem tailTouchesAAndBOnly : Obligations.TailTouchesAAndBOnly := by
  refine ⟨fun t h => (ignoresCD_tail t).keeps h, fun t h c d => ?_, fun t o h => ⟨?_, ?_, ?_, ?_, ?_⟩⟩
  · have hcd : tail t { h with C := c, D := d } = (tail t h).setCD c d := ignoresCD_tail t c d h
    rw [hcd]
    exact ⟨HashState.setCD_A c d _, HashState.setCD_B c d _⟩
  · exact hashState_ext rfl rfl (t16_C t o h) (t16_D t o h)
  · exact hashState_ext rfl (t8_B t o h) (t8_C t o h) (t8_D t o h)
  · exact hashState_ext (t4_A t o h) rfl (t4_C t o h) (t4_D t o h)
  · exact hashState_ext rfl (t2_B t o h) (t2_C t o h) (t2_D t o h)
  · exact hashState_ext (t1_A t o h) rfl (t1_C t o h) (t1_D t o h)

/-- Settles O37: the lines in the order of the definitions. -/
theorem tailPieceLines : Obligations.TailPieceLines :=
  fun _ _ _ => ⟨⟨_, _, rfl, rfl, rfl, rfl⟩, ⟨_, rfl, rfl⟩, ⟨_, rfl, rfl⟩, ⟨_, rfl, rfl⟩, _, rfl, rfl⟩

/-- Settles O38: the lines in the order of the definition, which from zeros give zeros. -/
theorem avalancheLines : Obligations.AvalancheLines := by
  intro h
  refine ⟨⟨_, _, rfl, rfl, rfl, rfl⟩, aval_C h, aval_D h, fun hA hB => ?_⟩
  simp [aval, hA, hB, rotr]

/-- Settles O49: the two digests, computed. -/
theorem knownVectors : Obligations.KnownVectors := by
  unfold Obligations.KnownVectors
  decide

end Sys2Proof.Machine
end

section
/-! A message shorter than a block ignores C and D (R21). -/

namespace Sys2Proof.Machine

theorem execFinal_withCD {s : State} (hp : s.phase = .active) (hs : s.bytes.toNat < 32) (c d : Word) :
    execFinal (withCD c d s) = onNext (withCD c d) (execFinal s) := by
  have hbulk : s.bulk = false := by simpa [State.bulk] using hs
  have hbulk' : (withCD c d s).bulk = false := hbulk
  rw [execFinal_of_active hp, execFinal_of_active (s := withCD c d s) hp, hbulk, hbulk']
  change settle ((readBytes s.carry 0 s.fill).map _) = _
  cases readBytes s.carry 0 s.fill with
  | error f => rfl
  | ok t =>
    have hhash : finalHash false t (withCD c d s).hash = (finalHash false t s.hash).setCD c d :=
      ignoresCD_finalHash t c d s.hash
    simp only [Except.map, settle, onNext, hhash]
    rfl

theorem pushBytes_withCD {x : List Byte} {s : State} (hx : s.fill + x.length < 32) (c d : Word) :
    pushBytes x (withCD c d s) = (pushBytes x s).map (withCD c d) := by
  obtain ⟨m, hm, -⟩ := writeBytes_spec (m := s.carry) hx.le
  rw [pushBytes_of_short hx hm, pushBytes_of_short (s := withCD c d s) hx hm]
  rfl

theorem execPush_withCD {x : List Byte} {s : State} (hx : s.bytes.toNat + x.length < 32) (c d : Word) :
    execPush x (withCD c d s) = onNext (withCD c d) (execPush x s) := by
  rcases execPush_cases x s with ⟨hl, h⟩ | ⟨hl, hp, h⟩ | ⟨hl, hp, hn, h⟩ | ⟨hl, hp, hn, h⟩ <;> rw [h]
  · rw [execPush_of_overlong hl]; rfl
  · rw [execPush_of_not_active (s := withCD c d s) hl hp]; rfl
  · rw [execPush_of_overflow (s := withCD c d s) hl hp hn]; rfl
  · have hshort : s.fill + x.length < 32 := by rw [State.fill]; omega
    rw [execPush_of_accepted (s := withCD c d s) hl hp hn, pushBytes_withCD hshort]
    cases pushBytes x s <;> rfl

/-- Settles O55: below 32 bytes FINAL has no BFIN and PUSH completes no block, so C and D are not read. -/
theorem shortMessageIgnoresCAndD : Obligations.ShortMessageIgnoresCAndD := by
  rintro s i c d hp hs (rfl | ⟨x, rfl, hx⟩)
  · exact execFinal_withCD hp hs c d
  · exact execPush_withCD hx c d

end Sys2Proof.Machine
end

section
/-! What a step does to each part of the state: the host's list and the index, BYTES, CARRY, and the words (R26, R27, R33,
R50, R130 to R139, R180 to R187). -/

namespace Sys2Proof.Machine

/-! ### What a command writes -/

/-- A command that answers a next state writes the flags at most (NOP, a reject), or the words, BYTES and PHASE at most
(INIT, FINAL), or it is PUSH's loop. -/
theorem exec_next_cases {i : Instr} {s t : State} (h : exec i s = .next t) :
    t = { s with err := t.err, errCode := t.errCode } ∨
    t = { s with hash := t.hash, bytes := t.bytes, phase := t.phase } ∨
    ∃ d, i = .push d ∧ pushBytes d s = .ok t := by
  cases i with
  | nop => cases h; exact .inl rfl
  | init seed => cases h; exact .inr (.inl rfl)
  | push d =>
    rw [exec_push] at h
    rcases execPush_cases d s with ⟨-, he⟩ | ⟨-, -, he⟩ | ⟨-, -, -, he⟩ | ⟨-, -, -, he⟩ <;> rw [he] at h
    · cases h; exact .inl rfl
    · cases h; exact .inl rfl
    · cases h; exact .inl rfl
    · exact .inr (.inr ⟨d, rfl, settle_eq_next.mp h⟩)
  | final =>
    rw [exec_final] at h
    rcases execFinal_cases s with ⟨-, he⟩ | ⟨-, f, -, he⟩ | ⟨-, b, -, he⟩ <;> rw [he] at h
    · cases h; exact .inl rfl
    · cases h
    · cases h; exact .inr (.inl rfl)

/-- No command writes the host's list, the index or the count of resets. -/
theorem exec_host_pc_resets {i : Instr} {s t : State} (h : exec i s = .next t) :
    t.host = s.host ∧ t.pc = s.pc ∧ t.resets = s.resets := by
  rcases exec_next_cases h with ht | ht | ⟨d, -, hd⟩
  · rw [ht]; exact ⟨rfl, rfl, rfl⟩
  · rw [ht]; exact ⟨rfl, rfl, rfl⟩
  · rw [pushBytes_frame hd]; exact ⟨rfl, rfl, rfl⟩

theorem runWord_host_pc_resets {w : CmdWord} {s t : State} (h : runWord w s = .next t) :
    t.host = s.host ∧ t.pc = s.pc ∧ t.resets = s.resets := by
  rcases runWord_cases w s with ⟨i, -, hr⟩ | ⟨e, -, hr⟩ <;> rw [hr] at h
  · exact exec_host_pc_resets h
  · cases h
    exact ⟨rfl, rfl, rfl⟩

/-! ### Accepted words -/

/-- The checks read PHASE and BYTES, which taking the command leaves. -/
theorem accepted_of_takeCommand {w : CmdWord} {s : State} (h : Accepted w (takeCommand s)) : Accepted w s :=
  fun c hc => h c (rejected_takeCommand hc)

/-- The checks that an accepted PUSH has passed, by its data. -/
theorem checks_of_accepted_push {w : CmdWord} {s : State} {d : List Byte} (ha : Accepted w s)
    (hd : decode w = .ok (.push d)) : d.length ≤ 8 ∧ s.phase = .active ∧ s.bytes.toNat + d.length < 2 ^ 64 := by
  obtain ⟨-, -, hphase, hbytes⟩ := accepted_iff.mp ha
  rcases decode_ok_cases hd with ⟨hi, -⟩ | ⟨seed, hi, -⟩ | ⟨n, p, hi, hn, rfl⟩ | ⟨hi, -⟩ <;> cases hi
  have hop := opField_mkWord 2 n p
  have hfit := hbytes hop
  rw [nField_mkWord] at hfit
  rw [pushData_length]
  exact ⟨hn, hphase (.inl hop), hfit⟩

/-- A word that is rejected, or an accepted NOP, leaves all but the flags. -/
theorem runWord_of_no_write {w : CmdWord} {s t : State}
    (hw : ∀ i, decode w = .ok i → Accepted w s → i = .nop) (h : runWord w s = .next t) :
    t = { s with err := t.err, errCode := t.errCode } := by
  by_cases ha : Accepted w s
  · obtain ⟨hop, hf, -⟩ := accepted_iff.mp ha
    rcases decode_cases w with ⟨hge, -⟩ | ⟨hill, -⟩ | ⟨-, -, i, hi⟩
    · exact absurd hop (Nat.not_lt.mpr hge)
    · exact absurd hill hf
    · rw [runWord_of_decode_ok hi, hw i hi ha] at h
      cases h
      rfl
  · obtain ⟨c, hc⟩ := not_forall_not.mp ha
    rw [runWord_of_rejected hc] at h
    cases h
    rfl

/-! ### CARRY -/

/-- A word that is no PUSH leaves CARRY. -/
theorem runWord_carry_of_ne_push {w : CmdWord} {s t : State} (hw : ∀ d, decode w ≠ .ok (.push d))
    (h : runWord w s = .next t) : t.carry = s.carry := by
  rcases runWord_cases w s with ⟨i, hi, hr⟩ | ⟨e, -, hr⟩ <;> rw [hr] at h
  · rcases exec_next_cases h with ht | ht | ⟨d, rfl, -⟩
    · rw [ht]
    · rw [ht]
    · exact absurd hi (hw d)
  · cases h
    rfl

/-- A PUSH leaves every byte of CARRY that its data do not go to. -/
theorem exec_push_readByte {d : List Byte} {s t : State} (h : exec (.push d) s = .next t) {i : Nat}
    (hi : ∀ k < d.length, (s.bytes.toNat + k) % 32 ≠ i) : readByte t.carry i = readByte s.carry i := by
  rcases exec_next_cases h with ht | ht | ⟨_, ⟨⟩, hd⟩
  · rw [ht]
  · rw [ht]
  · rw [readByte, readByte, pushBytes_get?_of_ne hd fun k hk => ?_]
    rw [State.fill, Nat.mod_add_mod]
    exact hi k hk

/-! ### The statements -/

/-- Settles O7: a presented word is taken and run. -/
theorem stepRunsThePresentedCommand : Obligations.StepRunsThePresentedCommand := by
  intro s w hp
  have hstep : step s = runWord w (takeCommand s) := step_presents hp
  exact ⟨fun i hi => hstep.trans (runWord_of_decode_ok hi _),
    fun e he => hstep.trans (runWord_of_decode_error he _), hstep⟩

/-- Settles O8: nothing to sample, and an idle sampling. -/
theorem stepWithoutCommandDoesNothing : Obligations.StepWithoutCommandDoesNothing := by
  refine fun s => ⟨step_exhausted, fun d rest hs hr hv => ?_⟩
  rw [step_idle hs hr hv, dropDrive, hs, List.tail_cons]

/-- Settles O9: the next state is the reset state, whatever the drive's command. -/
theorem resetInputTakesTheResetState : Obligations.ResetInputTakesTheResetState := by
  intro s d rest hs hr
  have hstatus : statusPort (resetEngine (dropDrive s)) = statusPort State.reset := rfl
  exact ⟨_, step_reset hs hr, rfl, rfl, rfl, rfl, hstatus.trans statusPortFields.1, rfl, rfl, rfl, fun _ => rfl,
    by simp [hs], rfl⟩

/-- Settles O10: the values of the reset state, in which no byte of CARRY is listed. -/
theorem resetStateValues : Obligations.ResetStateValues :=
  ⟨rfl, rfl, rfl, rfl, rfl, rfl, rfl, rfl, fun _ hi => readByte_of_no_value hi rfl⟩

/-- Settles O11: taking the command moves the list and the index, which the command leaves. -/
theorem everyCommandAdvancesByOne : Obligations.EveryCommandAdvancesByOne := by
  intro s t w hp h
  rw [step_presents hp] at h
  exact runWord_host_pc_resets h

/-- Settles O16: an accepted word is run on the same flags. -/
theorem acceptedWordWritesNoFlag : Obligations.AcceptedWordWritesNoFlag := by
  intro s t w hp ha h
  rw [step_presents hp] at h
  exact runWord_flags_of_accepted (s := takeCommand s) (accepted_takeCommand ha) h

/-- Settles O20: PUSH adds its count, which fits, and INIT and FINAL write 0. -/
theorem bytesCountsDataBytes : Obligations.BytesCountsDataBytes := by
  intro s t w hp ha h
  rw [step_presents hp] at h
  have ha' := accepted_takeCommand ha
  obtain ⟨-, -, -, hinit, hfinal⟩ := bytesPortShowsBytes
  refine ⟨fun d hd => ?_, fun seed hd => hinit _ t w seed hd h, fun hd => hfinal _ t w hd ha' h⟩
  obtain ⟨hlen, hphase, hfit⟩ := checks_of_accepted_push ha' hd
  rw [runWord_of_decode_ok hd, exec_push, execPush_of_accepted hlen hphase hfit, settle_eq_next] at h
  rw [takeCommand_bytes] at hfit
  rw [(pushBytes_phase_bytes h).2, takeCommand_bytes, BitVec.toNat_add, BitVec.toNat_ofNat]
  omega

/-- Settles O21: what is presented is rejected or NOP, and nothing else but the host's list moves. -/
theorem onlyAcceptedCommandsWriteTheHash : Obligations.OnlyAcceptedCommandsWriteTheHash := by
  intro s t hn hw h
  rcases step_cases_of_noReset hn with hs | hs | ⟨w, hp, hs⟩ <;> rw [hs] at h
  · cases h; exact ⟨rfl, rfl, rfl, rfl⟩
  · cases h; exact ⟨rfl, rfl, rfl, rfl⟩
  · rw [runWord_of_no_write (s := takeCommand s) (fun i hi ha => hw w i hp hi (accepted_of_takeCommand ha)) h]
    exact ⟨rfl, rfl, rfl, rfl⟩

/-- Settles O22: of the commands only PUSH writes CARRY, at its own addresses. -/
theorem onlyPushWritesCarry : Obligations.OnlyPushWritesCarry := by
  intro s t hn h
  refine ⟨fun hw => ?_, fun w d i hp hd hi => ?_⟩
  · rcases step_cases_of_noReset hn with hs | hs | ⟨w, hp, hs⟩ <;> rw [hs] at h
    · cases h; rfl
    · cases h; rfl
    · exact runWord_carry_of_ne_push (s := takeCommand s) (fun d => hw w d hp) h
  · rw [step_presents hp, runWord_of_decode_ok hd] at h
    exact exec_push_readByte (s := takeCommand s) h hi

/-- Settles O24: in FINALIZED only NOP and INIT are accepted, so without an INIT the words and PHASE stay. -/
theorem digestIsStable : Obligations.DigestIsStable := by
  intro s t hphase hn hinit h
  have hp : s.phase ≠ .active := by rw [hphase]; decide
  have hw : ∀ w i, Presents s w → decode w = .ok i → Accepted w s → i = .nop := by
    intro w i hpres hi ha
    rcases (accepted_iff_of_not_active hp).mp ha with hd | ⟨seed, hd⟩
    · exact Except.ok.inj (hi.symm.trans hd)
    · exact absurd hd (hinit w seed hpres)
  obtain ⟨hhash, -, -, hphase'⟩ := onlyAcceptedCommandsWriteTheHash s t hn hw h
  have hvalid : digestValid t = digestValid s := by rw [digestValid, digestValid, hphase']
  refine ⟨by rw [hvalid, digestValid, hphase]; rfl, ?_, ?_⟩
  · rw [digestPort, digestPort, hvalid, hhash]
  · rw [digestBytes, digestBytes, hvalid, hhash]

/-- Settles O39: NOP's word decodes to NOP, whose meaning is the state itself. -/
theorem nopLeavesTheState : Obligations.NopLeavesTheState := by
  refine ⟨fun s => rfl, fun s hp => ?_⟩
  rw [step_presents hp, runWord_of_decode_ok (i := .nop) rfl]
  rfl

/-! ### The digest port -/

/-- OUTPUT's bytes are those of the port, A in its low half and B in its high half. -/
theorem output_eq_port_bytes (h : HashState) :
    output h = (List.range 16).map fun i => (h.B ++ h.A).extractLsb' (8 * i) 8 := by
  rw [show 16 = 8 + 8 from rfl, List.range_add, List.map_append, List.map_map, output]
  congr 1
  · refine List.map_congr_left fun i hi => ?_
    have hi := List.mem_range.mp hi
    exact (BitVec.extractLsb'_append_eq_of_add_le (by omega)).symm
  · refine List.map_congr_left fun i _ => ?_
    have hstart : 8 * (8 + i) - 64 = 8 * i := by omega
    rw [Function.comp_apply, BitVec.extractLsb'_append_eq_of_le (by omega), hstart, lane]

/-- Settles O46: the port is B above A, and its bytes are OUTPUT's. -/
theorem digestPortBytes : Obligations.DigestPortBytes := by
  intro s
  have hvalid : digestValid s = true ↔ s.phase = .finalized := by simp [digestValid]
  refine ⟨hvalid, fun hne => ?_, fun hp => ?_⟩
  · rw [digestPort, digestBytes, if_neg (hvalid.not.mpr hne), if_neg (hvalid.not.mpr hne)]
    exact ⟨rfl, rfl⟩
  · refine ⟨_, if_pos (hvalid.mpr hp), BitVec.extractLsb'_append_eq_right, BitVec.extractLsb'_append_eq_left, ?_⟩
    rw [digestBytes, if_pos (hvalid.mpr hp), output_eq_port_bytes]

end Sys2Proof.Machine
end
